-- ==== Sys2Proof/Word.lean ====
section
/-! DEFINITION. The word types of the machine (spec 00_scope.md rules R8 and R11). -/

namespace Sys2Proof

/-- A register, an address or an ALU operand: an unsigned 32-bit word, `+` and `-` modulo 2^32 (R11). -/
abbrev Word := BitVec 32

/-- An instruction word or a 16-bit I/O register (R8). -/
abbrev Half := BitVec 16

/-- The unit of the address space (R50). -/
abbrev Byte := BitVec 8

end Sys2Proof
end

