-- ==== Sys2Proof/Config.lean ====
section
/-! DEFINITION. The two implementation parameters the spec leaves to the model (00_scope.md rule R9,
92_eei_decisions.md D3 and D15). The remaining parameters of R9 (the two images, scanline, hblank) are inputs: host
operations of Machine/HostPort.lean set them. -/

namespace Sys2Proof

/-- `UNIMPL_POLICY`: what a word that matches no implemented pattern does (D15). -/
inductive UnimplPolicy where
  | nop
  | fault
  deriving DecidableEq, Repr

/-- `HI_PC_WRITE`: how the high-register ADD and MOV write r15 (D3). -/
inductive HiPcWrite where
  | raw
  | clearBit0
  deriving DecidableEq, Repr

/-- The parameters of one machine. State holds them, and no step changes them (log entry 1). -/
structure Config where
  unimplPolicy : UnimplPolicy
  hiPcWrite    : HiPcWrite
  deriving DecidableEq, Repr

/-- The defaults of R9: `nop` and `raw`. -/
def Config.standard : Config := { unimplPolicy := .nop, hiPcWrite := .raw }

end Sys2Proof
end

