-- ==== Sys2Proof/Syntax.lean ====
section
/-! DEFINITION. The instructions: one constructor per row of spec/opcode_table.json, in the table's order, with the
operand fields of 30_encoding.md rules R105 to R107. -/

namespace Sys2Proof

/-- A 3-bit register field: r0 to r7 (R22, R106). -/
abbrev LowReg := Fin 8

/-- A 4-bit register index: r0 to r15 (R21, R106). -/
abbrev Reg := Fin 16

/-- The sixteen condition codes in the order of the table of 43_branch.md rule R182 (EQ is 0, the reserved code is 15). -/
inductive Cond where
  | eq | ne | cs | cc | mi | pl | vs | vc | hi | ls | ge | lt | gt | le | al | nv
  deriving DecidableEq, Repr

/-- The twenty instructions of rule R101 and the fallback of rule R220. -/
inductive Instr where
  /-- ADD Rd,Rs (high register), R142 -/
  | addHi (rd rs : Reg)
  /-- CMP Rd,Rs (high register), R143 -/
  | cmpHi (rd rs : Reg)
  /-- MOV Rd,Rs (high register), R144 -/
  | movHi (rd rs : Reg)
  /-- BX Rs, R161 (bits 7 and 2 to 0 of the word are ignored, so they are no operand) -/
  | bx (rs : Reg)
  /-- ADD Rd,Rs,Rn, R137 -/
  | addReg (rd rs rn : LowReg)
  /-- SUB Rd,Rs,Rn, R138 -/
  | subReg (rd rs rn : LowReg)
  /-- ADD Rd,Rs,#imm3, R139 -/
  | addImm3 (rd rs : LowReg) (imm : BitVec 3)
  /-- SUB Rd,Rs,#imm3, R140 -/
  | subImm3 (rd rs : LowReg) (imm : BitVec 3)
  /-- PUSH {rlist}{LR}, R170: `lr` is the bit R -/
  | push (lr : Bool) (rlist : BitVec 8)
  /-- POP {rlist}{PC}, R171: `pc` is the bit R -/
  | pop (pc : Bool) (rlist : BitVec 8)
  /-- MOV Rd,#imm8, R134 -/
  | movImm8 (rd : LowReg) (imm : BitVec 8)
  /-- ADD Rd,#imm8, R135 -/
  | addImm8 (rd : LowReg) (imm : BitVec 8)
  /-- SUB Rd,#imm8, R136 -/
  | subImm8 (rd : LowReg) (imm : BitVec 8)
  /-- LDR Rd,[PC,#imm8*4], R200 -/
  | ldrPc (rd : LowReg) (imm : BitVec 8)
  /-- STR Rd,[Rb,#imm5*4], R201 -/
  | strImm5 (rd rb : LowReg) (imm : BitVec 5)
  /-- LDR Rd,[Rb,#imm5*4], R202 -/
  | ldrImm5 (rd rb : LowReg) (imm : BitVec 5)
  /-- STRB Rd,[Rb,#imm5], R203 -/
  | strbImm5 (rd rb : LowReg) (imm : BitVec 5)
  /-- LDRB Rd,[Rb,#imm5], R204 -/
  | ldrbImm5 (rd rb : LowReg) (imm : BitVec 5)
  /-- B #imm11, R180 -/
  | b (imm : BitVec 11)
  /-- Bcond #imm8, R181 -/
  | bcond (cond : Cond) (imm : BitVec 8)
  /-- A word that matches no row of rule R108, R220 -/
  | fallback (word : Half)
  deriving DecidableEq, Repr

end Sys2Proof
end

