-- ==== Sys2Proof/WellFormed.lean ====
section
/-! DEFINITION. Which instructions are well formed. Every operand type holds exactly the values its field encodes, so the
one check is that a fallback carries a word of the fallback space. That space is written here from the table of
45_fallback.md rule R221, not from the decoder's masks, so that decoder and check can disagree. -/

namespace Sys2Proof

/-- The ranges of rule R221, first and last word of each. -/
def fallbackRanges : List (Nat × Nat) :=
  [(0x0000, 0x17FF), (0x2800, 0x2FFF), (0x4000, 0x43FF), (0x5000, 0x5FFF), (0x8000, 0x8FFF), (0x9000, 0x9FFF),
   (0xA000, 0xAFFF), (0xB000, 0xB3FF), (0xB600, 0xBBFF), (0xBE00, 0xBFFF), (0xC000, 0xCFFF), (0xE800, 0xEFFF),
   (0xF000, 0xFFFF)]

/-- The word lies in a range of rule R221. -/
def inFallbackSpace (w : Half) : Bool :=
  fallbackRanges.any (fun r => r.1 ≤ w.toNat && w.toNat ≤ r.2)

/-- The instruction can be written: its operands are values its encoding admits. -/
def Instr.wellFormed : Instr → Bool
  | .fallback w => inFallbackSpace w
  | .addHi _ _ | .cmpHi _ _ | .movHi _ _ | .bx _ => true
  | .addReg _ _ _ | .subReg _ _ _ | .addImm3 _ _ _ | .subImm3 _ _ _ => true
  | .push _ _ | .pop _ _ => true
  | .movImm8 _ _ | .addImm8 _ _ | .subImm8 _ _ => true
  | .ldrPc _ _ | .strImm5 _ _ _ | .ldrImm5 _ _ _ | .strbImm5 _ _ _ | .ldrbImm5 _ _ _ => true
  | .b _ | .bcond _ _ => true

end Sys2Proof
end

