-- ==== Sys2Proof/Decode.lean ====
section
/-! DEFINITION. The decoder, from the opcode map of 30_encoding.md rules R104 to R108, and after it the encoder, from the
same tables. Opcode values and field positions are the spec's general knowledge (log entry 5). -/

namespace Sys2Proof

/-! ### Fields (R105, R106) -/

/-- The 3-bit register field whose low bit is bit `lo`. -/
def lowField (w : Half) (lo : Nat) : LowReg := (w.extractLsb' lo 3).toFin

/-- A full register index: the high bit at `hi` over the 3-bit field at `lo` (R106). -/
def hiField (w : Half) (hi lo : Nat) : Reg := (w.extractLsb' hi 1 ++ w.extractLsb' lo 3).toFin

/-- The condition named by a 4-bit code (R182). -/
def Cond.ofCode (c : BitVec 4) : Cond :=
  match c.toNat with
  | 0 => .eq | 1 => .ne | 2 => .cs | 3 => .cc | 4 => .mi | 5 => .pl | 6 => .vs | 7 => .vc
  | 8 => .hi | 9 => .ls | 10 => .ge | 11 => .lt | 12 => .gt | 13 => .le | 14 => .al | _ => .nv

/-- The 4-bit code of a condition (R182). -/
def Cond.code : Cond → BitVec 4
  | .eq => 0 | .ne => 1 | .cs => 2 | .cc => 3 | .mi => 4 | .pl => 5 | .vs => 6 | .vc => 7
  | .hi => 8 | .ls => 9 | .ge => 10 | .lt => 11 | .gt => 12 | .le => 13 | .al => 14 | .nv => 15

/-! ### The opcode map (R104, R108) -/

/-- One row of rule R108: a word `w` is the instruction when `w &&& mask = value`. -/
structure OpcodeRow where
  mnemonic : String
  mask     : Half
  value    : Half
  build    : Half → Instr

/-- The rows with an 8-bit opcode (R104, tested first). -/
def opcodeRows8 : List OpcodeRow :=
  [⟨"ADD_Rd_Rs__high_register", 0xFF00, 0x4400, fun w => .addHi (hiField w 7 0) (hiField w 6 3)⟩,
   ⟨"CMP_Rd_Rs__high_register", 0xFF00, 0x4500, fun w => .cmpHi (hiField w 7 0) (hiField w 6 3)⟩,
   ⟨"MOV_Rd_Rs__high_register", 0xFF00, 0x4600, fun w => .movHi (hiField w 7 0) (hiField w 6 3)⟩,
   ⟨"BX_Rs", 0xFF00, 0x4700, fun w => .bx (hiField w 6 3)⟩]

/-- The rows with a 7-bit opcode (R104, tested second). -/
def opcodeRows7 : List OpcodeRow :=
  [⟨"ADD_Rd_Rs_Rn", 0xFE00, 0x1800, fun w => .addReg (lowField w 0) (lowField w 3) (lowField w 6)⟩,
   ⟨"SUB_Rd_Rs_Rn", 0xFE00, 0x1A00, fun w => .subReg (lowField w 0) (lowField w 3) (lowField w 6)⟩,
   ⟨"ADD_Rd_Rs__imm3", 0xFE00, 0x1C00, fun w => .addImm3 (lowField w 0) (lowField w 3) (w.extractLsb' 6 3)⟩,
   ⟨"SUB_Rd_Rs__imm3", 0xFE00, 0x1E00, fun w => .subImm3 (lowField w 0) (lowField w 3) (w.extractLsb' 6 3)⟩,
   ⟨"PUSH__rlist__LR", 0xFE00, 0xB400, fun w => .push (w.getLsbD 8) (w.extractLsb' 0 8)⟩,
   ⟨"POP__rlist__PC", 0xFE00, 0xBC00, fun w => .pop (w.getLsbD 8) (w.extractLsb' 0 8)⟩]

/-- The rows with a 5-bit opcode (R104, tested third). -/
def opcodeRows5 : List OpcodeRow :=
  [⟨"MOV_Rd__imm8", 0xF800, 0x2000, fun w => .movImm8 (lowField w 8) (w.extractLsb' 0 8)⟩,
   ⟨"ADD_Rd__imm8", 0xF800, 0x3000, fun w => .addImm8 (lowField w 8) (w.extractLsb' 0 8)⟩,
   ⟨"SUB_Rd__imm8", 0xF800, 0x3800, fun w => .subImm8 (lowField w 8) (w.extractLsb' 0 8)⟩,
   ⟨"LDR_Rd__PC__imm8_4", 0xF800, 0x4800, fun w => .ldrPc (lowField w 8) (w.extractLsb' 0 8)⟩,
   ⟨"STR_Rd__Rb__imm5_4", 0xF800, 0x6000, fun w => .strImm5 (lowField w 0) (lowField w 3) (w.extractLsb' 6 5)⟩,
   ⟨"LDR_Rd__Rb__imm5_4", 0xF800, 0x6800, fun w => .ldrImm5 (lowField w 0) (lowField w 3) (w.extractLsb' 6 5)⟩,
   ⟨"STRB_Rd__Rb__imm5", 0xF800, 0x7000, fun w => .strbImm5 (lowField w 0) (lowField w 3) (w.extractLsb' 6 5)⟩,
   ⟨"LDRB_Rd__Rb__imm5", 0xF800, 0x7800, fun w => .ldrbImm5 (lowField w 0) (lowField w 3) (w.extractLsb' 6 5)⟩,
   ⟨"B__imm11", 0xF800, 0xE000, fun w => .b (w.extractLsb' 0 11)⟩]

/-- The row with a 4-bit opcode (R104, tested last). -/
def opcodeRows4 : List OpcodeRow :=
  [⟨"Bcond__imm8", 0xF000, 0xD000, fun w => .bcond (Cond.ofCode (w.extractLsb' 8 4)) (w.extractLsb' 0 8)⟩]

/-- The twenty implemented rows in the priority order of R103 and R104. -/
def opcodeRows : List OpcodeRow := opcodeRows8 ++ opcodeRows7 ++ opcodeRows5 ++ opcodeRows4

/-- The word is this row's instruction (R108). -/
def OpcodeRow.selects (r : OpcodeRow) (w : Half) : Bool := w &&& r.mask == r.value

/-- The first row of a list that selects the word, else the fallback. -/
def decodeIn : List OpcodeRow → Half → Instr
  | [], w => .fallback w
  | r :: rest, w => if r.selects w then r.build w else decodeIn rest w

/-- `Decode(instr)`: first match wins (R104). Total on all 65536 words; what no row selects is the fallback (R220). -/
def decode (w : Half) : Instr := decodeIn opcodeRows w

/-! ### Bytes (R66, R102) -/

/-- Why a byte string is no instruction: one halfword needs two bytes (R102). -/
inductive DecodeError where
  | truncated
  deriving DecidableEq, Repr

/-- One instruction from a byte string, low byte first (R66), and the bytes after it. -/
def decodeBytes : List Byte → Except DecodeError (Instr × List Byte)
  | b0 :: b1 :: rest => .ok (decode (b1 ++ b0), rest)
  | [_] => .error .truncated
  | [] => .error .truncated

/-- The halfword an opcode-table word stands for: `nbits` bits, every bit above them 0. -/
def tableHalf (nbits w : Nat) : Half := BitVec.ofNat 16 (w % 2 ^ nbits)

/-- A halfword as the memory stores it (R66). -/
def halfBytes (h : Half) : List Byte := [h.extractLsb' 0 8, h.extractLsb' 8 8]

/-- What the decoder reads from an instruction numbered as spec/opcode_table.json numbers it. -/
def decodeTableWord (nbits w : Nat) : Option Instr :=
  match decodeBytes (halfBytes (tableHalf nbits w)) with
  | .ok (i, _) => some i
  | .error _ => none

/-! ### The encoder (R105, R108) -/

/-- The 3 bits of a low register number. -/
def lowBits (r : LowReg) : BitVec 3 := BitVec.ofFin r

/-- The low 3 bits of a register index, its field in format HI. -/
def regBits (r : Reg) : BitVec 3 := (BitVec.ofFin r : BitVec 4).extractLsb' 0 3

/-- The top bit of a register index, H1 or H2 of format HI. -/
def regHigh (r : Reg) : BitVec 1 := (BitVec.ofFin r : BitVec 4).extractLsb' 3 1

/-- The one-bit field of a Bool. -/
def bitField (b : Bool) : BitVec 1 := BitVec.ofBool b

/-- The word of an instruction, each arm the row's pattern of rule R108, most significant bit first. The bits BX
ignores are written as 0 (R161). -/
def encode : Instr → Half
  | .addHi rd rs => 0b01000100#8 ++ regHigh rd ++ regHigh rs ++ regBits rs ++ regBits rd
  | .cmpHi rd rs => 0b01000101#8 ++ regHigh rd ++ regHigh rs ++ regBits rs ++ regBits rd
  | .movHi rd rs => 0b01000110#8 ++ regHigh rd ++ regHigh rs ++ regBits rs ++ regBits rd
  | .bx rs => 0b01000111#8 ++ 0#1 ++ regHigh rs ++ regBits rs ++ 0#3
  | .addReg rd rs rn => 0b0001100#7 ++ lowBits rn ++ lowBits rs ++ lowBits rd
  | .subReg rd rs rn => 0b0001101#7 ++ lowBits rn ++ lowBits rs ++ lowBits rd
  | .addImm3 rd rs imm => 0b0001110#7 ++ imm ++ lowBits rs ++ lowBits rd
  | .subImm3 rd rs imm => 0b0001111#7 ++ imm ++ lowBits rs ++ lowBits rd
  | .push lr rlist => 0b1011010#7 ++ bitField lr ++ rlist
  | .pop pc rlist => 0b1011110#7 ++ bitField pc ++ rlist
  | .movImm8 rd imm => 0b00100#5 ++ lowBits rd ++ imm
  | .addImm8 rd imm => 0b00110#5 ++ lowBits rd ++ imm
  | .subImm8 rd imm => 0b00111#5 ++ lowBits rd ++ imm
  | .ldrPc rd imm => 0b01001#5 ++ lowBits rd ++ imm
  | .strImm5 rd rb imm => 0b01100#5 ++ imm ++ lowBits rb ++ lowBits rd
  | .ldrImm5 rd rb imm => 0b01101#5 ++ imm ++ lowBits rb ++ lowBits rd
  | .strbImm5 rd rb imm => 0b01110#5 ++ imm ++ lowBits rb ++ lowBits rd
  | .ldrbImm5 rd rb imm => 0b01111#5 ++ imm ++ lowBits rb ++ lowBits rd
  | .b imm => 0b11100#5 ++ imm
  | .bcond cond imm => 0b1101#4 ++ cond.code ++ imm
  | .fallback w => w

/-! ### Operands computed from addresses (R112, R113) -/

/-- The imm11 of a B at `a` to `target`, counted from `a + 2` (R112). -/
def bField (a target : Word) : BitVec 11 := (target - (a + 2#32)).extractLsb' 1 11

/-- The imm8 of a Bcond at `a` to `target`, counted from `a + 2` (R112). -/
def bcondField (a target : Word) : BitVec 8 := (target - (a + 2#32)).extractLsb' 1 8

/-- Where the literal of an `ldr rd, [pc, #imm8*4]` at `a` stands (R113). -/
def literalPlace (a : Word) (imm : BitVec 8) : Word := ((a + 4#32) &&& 0xFFFFFFFC#32) + (imm.setWidth 32 <<< 2)

end Sys2Proof
end

