-- ==== Sys2Proof/Machine/State.lean ====
section
/-! DEFINITION. The state record of 10_state.md rule R20 as plain data, its value after reset (R34), and the reasons a step
can stop (00_scope.md rule R14). -/

namespace Sys2Proof.Machine

/-- The backing bytes of every region: (key, byte) pairs in canonical form, keys strictly rising and no entry equal to
what an unlisted key reads as. The key of a byte is its region's base plus its index there (log entry 3). -/
abbrev Memory := List Host.Cell

/-- What an unlisted key reads as: bus reset zeroes all backing memory (R34, R263). -/
def Memory.unlisted : Byte := 0x00

/-- The canonical form. -/
abbrev Memory.wf (m : Memory) : Prop :=
  m.Pairwise (fun a b => a.1 < b.1) ∧ ∀ c ∈ m, c.2 ≠ Memory.unlisted

/-- The modelled subset of the CPSR (R27). -/
structure Cpsr where
  /-- negative, bit 31 -/
  n : Bool
  /-- zero, bit 30 -/
  z : Bool
  /-- carry, bit 29 -/
  c : Bool
  /-- overflow, bit 28 -/
  v : Bool
  /-- Thumb state, bit 5 -/
  t : Bool
  deriving DecidableEq, Repr

/-- The two fault reasons of rule R14. -/
inductive FaultReason where
  /-- A step began with T = 0 (R100, decision D1). -/
  | armStateUnimplemented
  /-- A fallback word under `UNIMPL_POLICY = fault`, with the word (R220). -/
  | unimplemented (word : Half)
  deriving DecidableEq, Repr

/-- The run status (R20). -/
inductive RunStatus where
  | running
  | faulted (reason : FaultReason)
  deriving DecidableEq, Repr

/-- How a step stops. -/
inductive Fault where
  /-- The step raised one of the two reasons of R14 and changed nothing. Raised by `stepGuard` (T = 0) and by
  `execFallback` (policy `fault`). Safe: the spec's own outcome, and nothing is claimed beyond it. -/
  | raised (reason : FaultReason)
  /-- The status is not running, so no step exists (R100). Answered by `stepGuard` alone. Safe: the spec has no
  behaviour here for a claim to be wrong about (log entry 2). -/
  | notRunning (reason : FaultReason)
  deriving DecidableEq, Repr

/-- Instructions the model gives no meaning. -/
inductive Refusal where
  /-- An arm of exec whose instruction has no meaning yet, by its mnemonic in spec/opcode_table.json. Safe: nothing is
  claimed of it. No arm uses it: every row has its meaning. -/
  | notModelled (mnemonic : String)
  deriving DecidableEq, Repr

/-- The state record of R20, and the machine's parameters. -/
structure State where
  /-- x[0] to x[15]; 13 is SP, 14 is LR, 15 is PC (R21) -/
  regs           : Vector Word 16
  cpsr           : Cpsr
  status         : RunStatus
  /-- the bytes of bios, ewram, iwram, io, palette, vram, oam and rom -/
  mem            : Memory
  biosLoaded     : Bool
  /-- N_rom, the length of the cartridge image -/
  romSize        : Nat
  dispstatShadow : Half
  scanline       : Half
  hblank         : Bool
  /-- the model's own field: the parameters of R9 (log entry 1) -/
  config         : Config
  deriving DecidableEq, Repr

/-- The state after bus reset and CPU reset (R34), with the parameters at their defaults (R9). -/
def State.reset : State where
  regs           := Vector.replicate 16 0
  cpsr           := { n := false, z := false, c := false, v := false, t := true }
  status         := .running
  mem            := []
  biosLoaded     := false
  romSize        := 0
  dispstatShadow := 0
  scanline       := 0
  hblank         := false
  config         := Config.standard

/-- What an instruction's meaning answers. -/
abbrev Result := Host.Outcome State Fault Refusal

end Sys2Proof.Machine
end

