-- ==== Sys2Proof/Machine/Map.lean ====
section
/-! DEFINITION. The address map of 20_memory.md rule R51: which region an address falls in, the index of its byte there,
and the key under which State.mem holds that byte. -/

namespace Sys2Proof.Machine

/-- The rows of rule R51. The three cartridge windows are one region: they show the same image (R64). -/
inductive Region where
  | bios | ewram | iwram | io | palette | vram | oam | rom | unmapped
  deriving DecidableEq, Repr

/-- The place an address names: a region and the index of the byte there. For the cartridge the index is the offset
within the window, before the wrap modulo N_rom. -/
structure Place where
  region : Region
  index  : Nat
  deriving DecidableEq, Repr

/-- The first key of a region's bytes in State.mem: the region's base address in R51. -/
def Region.base : Region → Nat
  | .bios => 0x00000000
  | .ewram => 0x02000000
  | .iwram => 0x03000000
  | .io => 0x04000000
  | .palette => 0x05000000
  | .vram => 0x06000000
  | .oam => 0x07000000
  | .rom => 0x08000000
  | .unmapped => 0

/-- How many bytes back a region (R8, R51). The cartridge's are N_rom, a part of the state. -/
def Region.size : Region → Nat → Nat
  | .bios, _ => 0x4000
  | .ewram, _ => 0x40000
  | .iwram, _ => 0x8000
  | .io, _ => 0x400
  | .palette, _ => 0x400
  | .vram, _ => 0x18000
  | .oam, _ => 0x400
  | .rom, n => n
  | .unmapped, _ => 0

/-- VRAM: offsets at or above 96 KiB alias offsets 0 to 32 KiB (R62). -/
def vramIndex (off : Nat) : Nat := if off < 0x18000 then off else off - 0x18000

/-- The decode of rules R51 and R52, in the resolution order of R51. -/
def resolve (a : Word) : Place :=
  let n := a.toNat
  if n < 0x00004000 then ⟨.bios, n⟩
  else if 0x02000000 ≤ n ∧ n < 0x02040000 then ⟨.ewram, n - 0x02000000⟩
  else if 0x03000000 ≤ n ∧ n < 0x03008000 then ⟨.iwram, n - 0x03000000⟩
  else if 0x04000000 ≤ n ∧ n < 0x04000400 then ⟨.io, n - 0x04000000⟩
  else if 0x05000000 ≤ n ∧ n < 0x06000000 then ⟨.palette, (n - 0x05000000) % 0x400⟩
  else if 0x06000000 ≤ n ∧ n < 0x06020000 then ⟨.vram, vramIndex (n - 0x06000000)⟩
  else if 0x07000000 ≤ n ∧ n < 0x08000000 then ⟨.oam, (n - 0x07000000) % 0x400⟩
  else if 0x08000000 ≤ n ∧ n < 0x0E000000 then ⟨.rom, (n - 0x08000000) % 0x02000000⟩
  else ⟨.unmapped, 0⟩

/-- The key of a byte in State.mem. -/
def Place.key (p : Place) : Nat := p.region.base + p.index

end Sys2Proof.Machine
end

