-- ==== Sys2Proof/Machine/Ops.lean ====
section
/-! DEFINITION. The named operations over registers and memory: the register file (00_scope.md R12), the backing memory,
the I/O registers (20_memory.md R70 to R79), the byte and wide accesses (R52 to R55), the state-switching branch
(41_bx.md R160), raising a fault (R14), and the fetch side of the step cycle (30_encoding.md R100). -/

namespace Sys2Proof.Machine

/-! ### Registers (R12, R21) -/

/-- SP is r13. -/
def spReg : Reg := 13

/-- LR is r14. -/
def lrReg : Reg := 14

/-- PC is r15. -/
def pcReg : Reg := 15

/-- A low register's number in the full file (R106). -/
def lowReg (r : LowReg) : Reg := r.castLE (by decide)

/-- `x[i]`. -/
def readReg (s : State) (r : Reg) : Word := s.regs[r]

/-- `x[i] <- v`. No register is hardwired (R21). -/
def writeReg (s : State) (r : Reg) (v : Word) : State := { s with regs := s.regs.set r v }

/-- `pc`: between steps the address of the next fetch, during a step the post-fetch value (R24). -/
def pc (s : State) : Word := readReg s pcReg

/-- `sp`. -/
def sp (s : State) : Word := readReg s spReg

/-- The CPSR as a word, its unmodelled bits 0 (R27, R31). -/
def Cpsr.toWord (f : Cpsr) : Word :=
  BitVec.ofBool f.n ++ BitVec.ofBool f.z ++ BitVec.ofBool f.c ++ BitVec.ofBool f.v ++ 0#22 ++ BitVec.ofBool f.t ++ 0#5

/-! ### Backing memory -/

/-- The byte at a key; an unlisted key reads as `Memory.unlisted`. -/
def Memory.read : Memory → Nat → Byte
  | [], _ => Memory.unlisted
  | c :: rest, k => if c.1 = k then c.2 else Memory.read rest k

/-- The memory without an entry at a key. -/
def Memory.erase (m : Memory) (k : Nat) : Memory := m.filter (fun c => c.1 != k)

/-- The memory with one more entry, before the first larger key. -/
def Memory.insertCell : Memory → Nat → Byte → Memory
  | [], k, v => [(k, v)]
  | c :: rest, k, v => if k < c.1 then (k, v) :: c :: rest else c :: Memory.insertCell rest k v

/-- The memory with the byte at a key replaced, in canonical form: writing what an unlisted key reads as removes the
entry. -/
def Memory.write (m : Memory) (k : Nat) (v : Byte) : Memory :=
  if v = Memory.unlisted then Memory.erase m k else Memory.insertCell (Memory.erase m k) k v

/-- The backing byte of a place. -/
def backing (s : State) (p : Place) : Byte := Memory.read s.mem p.key

/-- Replaces the backing byte of a place. -/
def setBacking (s : State) (p : Place) (v : Byte) : State := { s with mem := Memory.write s.mem p.key v }

/-! ### I/O registers (R70 to R79) -/

/-- The VBlank flag: `scanline >= 160` (R72). -/
def vblankFlag (s : State) : Bool := 160 ≤ s.scanline.toNat

/-- LYC: bits 15 to 8 of DISPSTAT (R72). -/
def lyc (s : State) : Byte := s.dispstatShadow.extractLsb' 8 8

/-- The VCount-match flag: the 16-bit scanline equals LYC, zero-extended (R72, decision D12). -/
def vcountMatch (s : State) : Bool := s.scanline == (lyc s).setWidth 16

/-- `dispstat_read16()`: the stored bits with the three computed flags in bits 0 to 2 (R72). -/
def dispstatRead16 (s : State) : Half :=
  s.dispstatShadow ||| (BitVec.ofBool (vblankFlag s)).setWidth 16 ||| ((BitVec.ofBool s.hblank).setWidth 16 <<< 1)
    ||| ((BitVec.ofBool (vcountMatch s)).setWidth 16 <<< 2)

/-- `io_read8(off)` (R71, R72, R75, R77). -/
def ioRead8 (s : State) (off : Nat) : Byte :=
  match off with
  | 4 => (dispstatRead16 s).extractLsb' 0 8
  | 5 => (dispstatRead16 s).extractLsb' 8 8
  | 6 => s.scanline.extractLsb' 0 8
  | 7 => s.scanline.extractLsb' 8 8
  | _ => backing s ⟨.io, off⟩

/-- `io_write8(off, v)` (R74): DISPSTAT keeps its writable bits, VCOUNT ignores the write, the rest are plain bytes. -/
def ioWrite8 (s : State) (off : Nat) (v : Byte) : State :=
  match off with
  | 4 => { s with dispstatShadow := s.dispstatShadow.extractLsb' 8 8 ++ (v &&& 0xF8#8) }
  | 5 => { s with dispstatShadow := v ++ s.dispstatShadow.extractLsb' 0 8 }
  | 6 => s
  | 7 => s
  | _ => setBacking s ⟨.io, off⟩ v

/-! ### Byte accesses (R52, R54) -/

/-- The open-bus byte (R8, R56). -/
def openBus : Byte := 0xFF

/-- `rom_read8(off)`: the image, repeated; open bus while it is empty (R52, R64). -/
def romRead8 (s : State) (off : Nat) : Byte :=
  if s.romSize = 0 then openBus else backing s ⟨.rom, off % s.romSize⟩

/-- `read8(a)` (R52): never fails and changes nothing. -/
def read8 (s : State) (a : Word) : Byte :=
  let p := resolve a
  match p.region with
  | .bios => if s.biosLoaded then backing s p else openBus
  | .ewram | .iwram | .palette | .vram | .oam => backing s p
  | .io => ioRead8 s p.index
  | .rom => romRead8 s p.index
  | .unmapped => openBus

/-- `write8(a, v)` (R54): stores in RAM, goes to the I/O block, and is discarded by BIOS, ROM and unmapped space. -/
def write8 (s : State) (a : Word) (v : Byte) : State :=
  let p := resolve a
  match p.region with
  | .ewram | .iwram | .palette | .vram | .oam => setBacking s p v
  | .io => ioWrite8 s p.index v
  | .bios | .rom | .unmapped => s

/-! ### Wide accesses (R53, R55): little-endian, any alignment, addresses modulo 2^32 -/

/-- `read16(a)`. -/
def read16 (s : State) (a : Word) : Half := read8 s (a + 1#32) ++ read8 s a

/-- `read32(a)`. -/
def read32 (s : State) (a : Word) : Word := read8 s (a + 3#32) ++ read8 s (a + 2#32) ++ read8 s (a + 1#32) ++ read8 s a

/-- Byte `k` of a word, `v[8k+7:8k]`. -/
def byteOf (v : Word) (k : Nat) : Byte := v.extractLsb' (8 * k) 8

/-- `write16(a, v)`. -/
def write16 (s : State) (a : Word) (v : Half) : State :=
  write8 (write8 s a (v.extractLsb' 0 8)) (a + 1#32) (v.extractLsb' 8 8)

/-- `write32(a, v)`: four byte writes, ascending (R55). -/
def write32 (s : State) (a : Word) (v : Word) : State :=
  write8 (write8 (write8 (write8 s a (byteOf v 0)) (a + 1#32) (byteOf v 1)) (a + 2#32) (byteOf v 2)) (a + 3#32) (byteOf v 3)

/-! ### Rotation and the unaligned word primitives (44_loadstore.md R210 to R212) -/

/-- `ror32(v, n)` (R212). -/
def ror32 (v : Word) (n : Nat) : Word :=
  let k := n % 32
  if k = 0 then v else (v >>> k) ||| (v <<< (32 - k))

/-- An address rounded down to a 4-byte boundary. -/
def alignWord (a : Word) : Word := a &&& 0xFFFFFFFC#32

/-- `address mod 4`. -/
def misalignment (a : Word) : Nat := (a.extractLsb' 0 2).toNat

/-- `LoadWordRotated(a)` (R210). -/
def loadWordRotated (s : State) (a : Word) : Word := ror32 (read32 s (alignWord a)) (8 * misalignment a)

/-- The word `StoreWordRotated(a, v)` writes at the aligned address (R211). -/
def storeRotation (a v : Word) : Word := ror32 v (32 - 8 * misalignment a)

/-- `StoreWordRotated(a, v)` (R211). -/
def storeWordRotated (s : State) (a v : Word) : State := write32 s (alignWord a) (storeRotation a v)

/-! ### Writing the program counter -/

/-- `T <- b` (R12). -/
def setThumb (s : State) (b : Bool) : State := { s with cpsr := { s.cpsr with t := b } }

/-- `InterworkBranch(t)` (R160): bit 0 of the target chooses the state; the address is aligned for it. -/
def interworkBranch (s : State) (t : Word) : State :=
  if t.getLsbD 0 then writeReg (setThumb s true) pcReg (t &&& 0xFFFFFFFE#32)
  else writeReg (setThumb s false) pcReg (t &&& 0xFFFFFFFC#32)

/-- The value `HiWrite(d, v)` writes: `v`, but for r15 under `HI_PC_WRITE = clear_bit0` (R141). -/
def hiValue (s : State) (d : Reg) (v : Word) : Word :=
  if d = pcReg ∧ s.config.hiPcWrite = .clearBit0 then v &&& 0xFFFFFFFE#32 else v

/-- `HiWrite(d, v)` (R141). -/
def hiWrite (s : State) (d : Reg) (v : Word) : State := writeReg s d (hiValue s d v)

/-- A PC-relative branch: the offset is added to the post-fetch PC (R180, R181, R183). -/
def branchBy (s : State) (offset : Word) : State := writeReg s pcReg (pc s + offset)

/-! ### Faults (R14). The core takes no exception: nothing is saved and no vector is used (60_exceptions.md R230, R235,
R236), so raising a fault is the one shared operation, and there is no return from one. -/

/-- `raise reason`: the step ends in a fault and changes nothing (R14). -/
def raise (reason : FaultReason) : Result := .fault (.raised reason)

/-- The reason a fault leaves in the status (R232). -/
def Fault.reason : Fault → FaultReason
  | .raised r => r
  | .notRunning r => r

/-- The state a faulting step leaves: nothing changes but the status (R14, R232, decision D1). -/
def recordFault (s : State) (f : Fault) : State := { s with status := .faulted f.reason }

/-! ### The step cycle's own parts (R100) -/

/-- The checks before the fetch, in the order of R234: the status, then T. -/
def stepGuard (s : State) : Option Fault :=
  match s.status with
  | .faulted r => some (.notRunning r)
  | .running => if s.cpsr.t then none else some (.raised .armStateUnimplemented)

/-- The fetch: the halfword at PC, odd or even (R26, R100). -/
def fetch (s : State) : Half := read16 s (pc s)

/-- `pc <- pc + 2`, modulo 2^32 (R25). -/
def advancePc (s : State) : State := writeReg s pcReg (pc s + 2#32)

end Sys2Proof.Machine
end

