-- ==== Sys2Proof/Machine/Flags.lean ====
section
/-! DEFINITION. Every flag computation of the spec: the ALU's (40_dataproc.md rules R130 to R132) and the condition table
(43_branch.md rule R182). -/

namespace Sys2Proof.Machine

/-- A result and the four flags it gives (R15). -/
structure AluResult where
  value : Word
  n : Bool
  z : Bool
  c : Bool
  v : Bool
  deriving DecidableEq, Repr

/-- `AddWithFlags(a, b)` (R130). C is the carry out of the 33-bit sum. -/
def addWithFlags (a b : Word) : AluResult :=
  let r := a + b
  { value := r
    n := r.msb
    z := r == 0
    c := 2 ^ 32 ≤ a.toNat + b.toNat
    v := (~~~(a ^^^ b) &&& (a ^^^ r)).msb }

/-- `SubWithFlags(a, b)`, minuend `a` (R131). C means no borrow. -/
def subWithFlags (a b : Word) : AluResult :=
  let r := a - b
  { value := r
    n := r.msb
    z := r == 0
    c := b.toNat ≤ a.toNat
    v := ((a ^^^ b) &&& (a ^^^ r)).msb }

/-- `SetNZ(r)`: C, V and T stay (R132). -/
def setNZ (s : State) (r : Word) : State := { s with cpsr := { s.cpsr with n := r.msb, z := r == 0 } }

/-- `SetNZCV`: T stays (R132). -/
def setNZCV (s : State) (a : AluResult) : State :=
  { s with cpsr := { s.cpsr with n := a.n, z := a.z, c := a.c, v := a.v } }

/-- The shape of the arithmetic instructions: the result to `rd`, then all four flags (R135 to R140). -/
def writeAlu (s : State) (rd : LowReg) (a : AluResult) : State := setNZCV (writeReg s (lowReg rd) a.value) a

/-- The shape of MOV and of the loads: the value to `rd`, then N and Z (R134, R200, R202, R204). -/
def writeNZ (s : State) (rd : LowReg) (v : Word) : State := setNZ (writeReg s (lowReg rd) v) v

/-- `ConditionPassed(cond)` (R182). -/
def conditionPassed (f : Cpsr) : Cond → Bool
  | .eq => f.z
  | .ne => !f.z
  | .cs => f.c
  | .cc => !f.c
  | .mi => f.n
  | .pl => !f.n
  | .vs => f.v
  | .vc => !f.v
  | .hi => f.c && !f.z
  | .ls => !f.c || f.z
  | .ge => f.n == f.v
  | .lt => f.n != f.v
  | .gt => !f.z && f.n == f.v
  | .le => f.z || f.n != f.v
  | .al => true
  | .nv => false

end Sys2Proof.Machine
end

