-- ==== Sys2Proof/Machine/Operands.lean ====
section
/-! DEFINITION. Immediate assembly (30_encoding.md rule R107), the addresses of loads and stores (44_loadstore.md), and the
register lists of PUSH and POP (42_stack.md). -/

namespace Sys2Proof.Machine

/-- An unsigned immediate as a word: imm8 of the IMM8 format, imm3 of ADDSUB (R107). -/
def zextImm {n : Nat} (imm : BitVec n) : Word := imm.setWidth 32

/-- The word forms' offset, `zext_32(imm5) << 2` (R107). -/
def wordOffset (imm : BitVec 5) : Word := zextImm imm <<< 2

/-- The byte forms' offset, `zext_32(imm5)` (R107). -/
def byteOffset (imm : BitVec 5) : Word := zextImm imm

/-- The B offset: `imm11` and a 0 bit below it, sign-extended from bit 11 (R107). -/
def bOffset (imm : BitVec 11) : Word := (imm ++ 0#1).signExtend 32

/-- The Bcond offset: `imm8` sign-extended, then doubled (R107). -/
def bcondOffset (imm : BitVec 8) : Word := (imm.signExtend 32) <<< 1

/-- The literal load's address, from the post-fetch PC (R200). -/
def literalAddress (s : State) (imm : BitVec 8) : Word := alignWord (pc s + 2#32) + (zextImm imm <<< 2)

/-- The address of STR and LDR, immediate offset (R201, R202). -/
def wordAddress (s : State) (rb : LowReg) (imm : BitVec 5) : Word := readReg s (lowReg rb) + wordOffset imm

/-- The address of STRB and LDRB, immediate offset (R203, R204). -/
def byteAddress (s : State) (rb : LowReg) (imm : BitVec 5) : Word := readReg s (lowReg rb) + byteOffset imm

/-- The registers of `rlist`, ascending: bit `i` selects r`i` (R170, R171). -/
def regList (rlist : BitVec 8) : List Reg :=
  (([0, 1, 2, 3, 4, 5, 6, 7] : List LowReg).filter (fun (r : LowReg) => rlist.getLsbD r.val)).map lowReg

/-- What PUSH stores, in order: the low registers, then LR if asked for (R170). -/
def pushList (lr : Bool) (rlist : BitVec 8) : List Reg := regList rlist ++ (if lr then [lrReg] else [])

/-- `4 × count` of R170. -/
def pushBytes (lr : Bool) (rlist : BitVec 8) : Word := BitVec.ofNat 32 (4 * (pushList lr rlist).length)

/-- The address PUSH starts storing at, and SP after it (R170). -/
def pushBase (s : State) (lr : Bool) (rlist : BitVec 8) : Word := sp s - pushBytes lr rlist

end Sys2Proof.Machine
end

