-- ==== Sys2Proof/Machine/Branch.lean ====
section
/-! DEFINITION. The branches (41_bx.md rule R161, 43_branch.md rules R180 and R181). -/

namespace Sys2Proof.Machine

/-- BX Rs; r15 as the source is the post-fetch PC (R161). -/
def execBx (rs : Reg) (s : State) : Result := .next (interworkBranch s (readReg s rs))

/-- B #imm11 (R180). -/
def execB (imm : BitVec 11) (s : State) : Result := .next (branchBy s (bOffset imm))

/-- Bcond #imm8: a condition that fails leaves the post-fetch PC (R181). -/
def execBcond (cond : Cond) (imm : BitVec 8) (s : State) : Result :=
  .next (if conditionPassed s.cpsr cond then branchBy s (bcondOffset imm) else s)

end Sys2Proof.Machine
end

