-- ==== Sys2Proof/Machine/DataProc.lean ====
section
/-! DEFINITION. The data-processing instructions (40_dataproc.md rules R134 to R144). Operands are read before anything is
written, so a source may also be the destination. -/

namespace Sys2Proof.Machine

/-- ADD Rd,Rs (high register): no flags; r15 as a destination is a jump (R141, R142). -/
def execAddHi (rd rs : Reg) (s : State) : Result := .next (hiWrite s rd (readReg s rd + readReg s rs))

/-- CMP Rd,Rs (high register): flags only (R143). -/
def execCmpHi (rd rs : Reg) (s : State) : Result := .next (setNZCV s (subWithFlags (readReg s rd) (readReg s rs)))

/-- MOV Rd,Rs (high register): no flags (R141, R144). -/
def execMovHi (rd rs : Reg) (s : State) : Result := .next (hiWrite s rd (readReg s rs))

/-- ADD Rd,Rs,Rn (R137). -/
def execAddReg (rd rs rn : LowReg) (s : State) : Result :=
  .next (writeAlu s rd (addWithFlags (readReg s (lowReg rs)) (readReg s (lowReg rn))))

/-- SUB Rd,Rs,Rn: Rs is the minuend (R138). -/
def execSubReg (rd rs rn : LowReg) (s : State) : Result :=
  .next (writeAlu s rd (subWithFlags (readReg s (lowReg rs)) (readReg s (lowReg rn))))

/-- ADD Rd,Rs,#imm3 (R139). -/
def execAddImm3 (rd rs : LowReg) (imm : BitVec 3) (s : State) : Result :=
  .next (writeAlu s rd (addWithFlags (readReg s (lowReg rs)) (zextImm imm)))

/-- SUB Rd,Rs,#imm3 (R140). -/
def execSubImm3 (rd rs : LowReg) (imm : BitVec 3) (s : State) : Result :=
  .next (writeAlu s rd (subWithFlags (readReg s (lowReg rs)) (zextImm imm)))

/-- MOV Rd,#imm8: N and Z only (R134). -/
def execMovImm8 (rd : LowReg) (imm : BitVec 8) (s : State) : Result := .next (writeNZ s rd (zextImm imm))

/-- ADD Rd,#imm8 (R135). -/
def execAddImm8 (rd : LowReg) (imm : BitVec 8) (s : State) : Result :=
  .next (writeAlu s rd (addWithFlags (readReg s (lowReg rd)) (zextImm imm)))

/-- SUB Rd,#imm8 (R136). -/
def execSubImm8 (rd : LowReg) (imm : BitVec 8) (s : State) : Result :=
  .next (writeAlu s rd (subWithFlags (readReg s (lowReg rd)) (zextImm imm)))

end Sys2Proof.Machine
end

