-- ==== Sys2Proof/Machine/Fallback.lean ====
section
/-! DEFINITION. The fallback (45_fallback.md rules R220 to R223): what a word outside the twenty rows does. -/

namespace Sys2Proof.Machine

/-- Nothing under `nop` (the fetch has already advanced PC), a fault with the word under `fault` (R220). -/
def execFallback (word : Half) (s : State) : Result :=
  match s.config.unimplPolicy with
  | .nop => .next s
  | .fault => raise (.unimplemented word)

end Sys2Proof.Machine
end

