-- ==== Sys2Proof/Machine/LoadStore.lean ====
section
/-! DEFINITION. The loads and stores (44_loadstore.md rules R200 to R204). A word access rotates on a misaligned address;
no access faults. -/

namespace Sys2Proof.Machine

/-- LDR Rd,[PC,#imm8*4] (R200). -/
def execLdrPc (rd : LowReg) (imm : BitVec 8) (s : State) : Result :=
  .next (writeNZ s rd (loadWordRotated s (literalAddress s imm)))

/-- STR Rd,[Rb,#imm5*4] (R201). -/
def execStrImm5 (rd rb : LowReg) (imm : BitVec 5) (s : State) : Result :=
  .next (storeWordRotated s (wordAddress s rb imm) (readReg s (lowReg rd)))

/-- LDR Rd,[Rb,#imm5*4] (R202). -/
def execLdrImm5 (rd rb : LowReg) (imm : BitVec 5) (s : State) : Result :=
  .next (writeNZ s rd (loadWordRotated s (wordAddress s rb imm)))

/-- STRB Rd,[Rb,#imm5]: the low byte of Rd (R203). -/
def execStrbImm5 (rd rb : LowReg) (imm : BitVec 5) (s : State) : Result :=
  .next (write8 s (byteAddress s rb imm) (byteOf (readReg s (lowReg rd)) 0))

/-- LDRB Rd,[Rb,#imm5]: zero-extended (R204). -/
def execLdrbImm5 (rd rb : LowReg) (imm : BitVec 5) (s : State) : Result :=
  .next (writeNZ s rd ((read8 s (byteAddress s rb imm)).setWidth 32))

end Sys2Proof.Machine
end

