-- ==== Sys2Proof/Machine/Stack.lean ====
section
/-! DEFINITION. PUSH and POP (42_stack.md rules R170 and R171): a full descending stack of plain word accesses at the
addresses as computed. -/

namespace Sys2Proof.Machine

/-- Stores the registers at rising addresses from `a`, one word each. -/
def storeRegs : List Reg → Word → State → State
  | [], _, s => s
  | r :: rest, a, s => storeRegs rest (a + 4#32) (write32 s a (readReg s r))

/-- Loads the registers from rising addresses from `a`, one word each. -/
def loadRegs : List Reg → Word → State → State
  | [], _, s => s
  | r :: rest, a, s => loadRegs rest (a + 4#32) (writeReg s r (read32 s a))

/-- The cursor of POP after `n` words. -/
def cursorAfter (a : Word) (n : Nat) : Word := a + BitVec.ofNat 32 (4 * n)

/-- PUSH: SP goes down first, then the stores go up from it, LR last (R170). -/
def execPush (lr : Bool) (rlist : BitVec 8) (s : State) : Result :=
  let base := pushBase s lr rlist
  .next (storeRegs (pushList lr rlist) base (writeReg s spReg base))

/-- POP: the loads go up from SP, a popped PC last through the state-switching branch, and SP takes the final cursor
(R171). -/
def execPop (pcBit : Bool) (rlist : BitVec 8) (s : State) : Result :=
  let loaded := loadRegs (regList rlist) (sp s) s
  let cursor := cursorAfter (sp s) (regList rlist).length
  if pcBit then
    .next (writeReg (interworkBranch loaded (read32 loaded cursor)) spReg (cursor + 4#32))
  else
    .next (writeReg loaded spReg cursor)

end Sys2Proof.Machine
end

