-- ==== Sys2Proof/Machine/Dispatch.lean ====
section
/-! DEFINITION. The dispatch of 30_encoding.md rule R100: `Execute`, one arm per instruction, on the state after the fetch. -/

namespace Sys2Proof.Machine

/-- The effect of an instruction on the post-fetch state, whose pc is the instruction's address plus 2 (R24). -/
def exec (i : Instr) (s : State) : Host.Outcome State Fault Refusal :=
  match i with
  | .addHi rd rs => Sys2Proof.Machine.execAddHi rd rs s
  | .cmpHi rd rs => Sys2Proof.Machine.execCmpHi rd rs s
  | .movHi rd rs => Sys2Proof.Machine.execMovHi rd rs s
  | .bx rs => Sys2Proof.Machine.execBx rs s
  | .addReg rd rs rn => Sys2Proof.Machine.execAddReg rd rs rn s
  | .subReg rd rs rn => Sys2Proof.Machine.execSubReg rd rs rn s
  | .addImm3 rd rs imm => Sys2Proof.Machine.execAddImm3 rd rs imm s
  | .subImm3 rd rs imm => Sys2Proof.Machine.execSubImm3 rd rs imm s
  | .push lr rlist => Sys2Proof.Machine.execPush lr rlist s
  | .pop pcBit rlist => Sys2Proof.Machine.execPop pcBit rlist s
  | .movImm8 rd imm => Sys2Proof.Machine.execMovImm8 rd imm s
  | .addImm8 rd imm => Sys2Proof.Machine.execAddImm8 rd imm s
  | .subImm8 rd imm => Sys2Proof.Machine.execSubImm8 rd imm s
  | .ldrPc rd imm => Sys2Proof.Machine.execLdrPc rd imm s
  | .strImm5 rd rb imm => Sys2Proof.Machine.execStrImm5 rd rb imm s
  | .ldrImm5 rd rb imm => Sys2Proof.Machine.execLdrImm5 rd rb imm s
  | .strbImm5 rd rb imm => Sys2Proof.Machine.execStrbImm5 rd rb imm s
  | .ldrbImm5 rd rb imm => Sys2Proof.Machine.execLdrbImm5 rd rb imm s
  | .b imm => Sys2Proof.Machine.execB imm s
  | .bcond cond imm => Sys2Proof.Machine.execBcond cond imm s
  | .fallback word => Sys2Proof.Machine.execFallback word s

end Sys2Proof.Machine
end

