-- ==== Sys2Proof/Machine/HostPort.lean ====
section
/-! DEFINITION. The host interface (70_reset_and_hazards.md rules R260 to R276): resets, loads, the scanline and HBlank
setters, the debug accessors and bus accesses, each taken between two steps (log entry 20); and how the model places one
instruction where the next fetch reads it (log entry 4). -/

namespace Sys2Proof.Machine

/-! ### Reset (R260, R263, R264) -/

/-- Bus reset: all backing memory zero, BIOS unloaded, no cartridge, IORegs zero. The CPU is not touched (R263). -/
def busReset (s : State) : State :=
  { s with mem := [], biosLoaded := false, romSize := 0, dispstatShadow := 0, scanline := 0, hblank := false }

/-- CPU reset: registers zero, CPSR Thumb-only, running. Memory is not touched (R264). -/
def cpuReset (s : State) : State :=
  { s with
    regs := Vector.replicate 16 0
    cpsr := { n := false, z := false, c := false, v := false, t := true }
    status := .running }

/-! ### Loading (R270 to R273). A file's content is `none` when it cannot be opened or read. -/

/-- The cells of a byte string placed at key `k`, in canonical form. -/
def cellsFrom (k : Nat) : List Byte → Memory
  | [] => []
  | b :: rest => if b = Memory.unlisted then cellsFrom (k + 1) rest else (k, b) :: cellsFrom (k + 1) rest

/-- The cells below a key. -/
def Memory.below (m : Memory) (k : Nat) : Memory := m.filter (fun c => c.1 < k)

/-- The cells at a key and above. -/
def Memory.atOrAbove (m : Memory) (k : Nat) : Memory := m.filter (fun c => k ≤ c.1)

/-- The size of the BIOS buffer (R8). -/
def biosSize : Nat := 16384

/-- `load_bios` (R270): up to 16 KiB, a short image zero-filled; with the answer, whether it succeeded. -/
def loadBios (image : Option (List Byte)) (s : State) : Bool × State :=
  match image with
  | none => (false, s)
  | some b =>
    (true, { s with mem := cellsFrom 0 (b.take biosSize) ++ Memory.atOrAbove s.mem biosSize, biosLoaded := true })

/-- The cartridge replaced by a byte string. -/
def setRom (b : List Byte) (s : State) : State :=
  { s with mem := Memory.below s.mem (Region.base .rom) ++ cellsFrom (Region.base .rom) b, romSize := b.length }

/-- `load_gamepak(bytes)` (R272): always succeeds, an empty image included. -/
def loadGamepakBytes (b : List Byte) (s : State) : Bool × State := (true, setRom b s)

/-- `load_gamepak(path)` (R271): an unreadable or empty file fails and changes nothing. -/
def loadGamepakFile (image : Option (List Byte)) (s : State) : Bool × State :=
  match image with
  | none => (false, s)
  | some [] => (false, s)
  | some (x :: rest) => (true, setRom (x :: rest) s)

/-! ### Setters and debug accessors (R274, R275) -/

/-- `set_scanline(v)` (R274). -/
def setScanline (v : Half) (s : State) : State := { s with scanline := v }

/-- `set_hblank(b)` (R274). -/
def setHblank (b : Bool) (s : State) : State := { s with hblank := b }

/-- The index a debug accessor reaches, `i & 15` (R275). -/
def maskedReg (i : Nat) : Reg := Fin.ofNat 16 i

/-- `get_reg(i)` (R275). -/
def getReg (i : Nat) (s : State) : Word := readReg s (maskedReg i)

/-- `set_reg(i, v)`: the value unchanged, even for index 15 (R275). -/
def setReg (i : Nat) (v : Word) (s : State) : State := writeReg s (maskedReg i) v

/-- `get_pc()` (R275). -/
def getPc (s : State) : Word := pc s

/-- `set_pc(v)`: bit 0 cleared (R275). -/
def setPc (v : Word) (s : State) : State := writeReg s pcReg (v &&& 0xFFFFFFFE#32)

/-- `read_cpsr()` (R275). -/
def readCpsr (s : State) : Word := s.cpsr.toWord

/-- One host operation that may change the state; reads (read8, read16, read32, getReg, getPc, readCpsr) change
nothing. -/
inductive HostOp where
  | busReset
  | cpuReset
  | loadBios (image : Option (List Byte))
  | loadGamepakFile (image : Option (List Byte))
  | loadGamepakBytes (image : List Byte)
  | setScanline (v : Half)
  | setHblank (b : Bool)
  | setReg (i : Nat) (v : Word)
  | setPc (v : Word)
  | write8 (a : Word) (v : Byte)
  | write16 (a : Word) (v : Half)
  | write32 (a : Word) (v : Word)
  deriving DecidableEq, Repr

/-- The state after a host operation (R260 to R276). -/
def runHostOp (op : HostOp) (s : State) : State :=
  match op with
  | .busReset => Sys2Proof.Machine.busReset s
  | .cpuReset => Sys2Proof.Machine.cpuReset s
  | .loadBios image => (Sys2Proof.Machine.loadBios image s).2
  | .loadGamepakFile image => (Sys2Proof.Machine.loadGamepakFile image s).2
  | .loadGamepakBytes image => (Sys2Proof.Machine.loadGamepakBytes image s).2
  | .setScanline v => Sys2Proof.Machine.setScanline v s
  | .setHblank b => Sys2Proof.Machine.setHblank b s
  | .setReg i v => Sys2Proof.Machine.setReg i v s
  | .setPc v => Sys2Proof.Machine.setPc v s
  | .write8 a v => Sys2Proof.Machine.write8 s a v
  | .write16 a v => Sys2Proof.Machine.write16 s a v
  | .write32 a v => Sys2Proof.Machine.write32 s a v

/-! ### Placing one instruction (log entry 4) -/

/-- Puts a byte where a read of `a` finds it, if the map has storage there: a BIOS byte also counts as loaded. -/
def placeByte (s : State) (a : Word) (v : Byte) : State :=
  let p := resolve a
  match p.region with
  | .bios => { setBacking s p v with biosLoaded := true }
  | .rom => setBacking s ⟨.rom, p.index % s.romSize⟩ v
  | .ewram | .iwram | .palette | .vram | .oam | .io | .unmapped => write8 s a v

/-- Gives the cartridge room for two bytes at `a` when it has none. -/
def growRom (s : State) (a : Word) : State :=
  if (resolve a).region = .rom ∧ s.romSize < 2 then { s with romSize := (resolve a).index + 2 } else s

/-- Puts a halfword at `a`, low byte first. -/
def placeHalf (s : State) (a : Word) (h : Half) : State :=
  placeByte (placeByte (growRom s a) a (h.extractLsb' 0 8)) (a + 1#32) (h.extractLsb' 8 8)

/-- A state whose next step fetches: running, in Thumb state. -/
def readyToFetch (s : State) : State := setThumb { s with status := .running } true

/-- An address that always has storage: the first byte of EWRAM. -/
def spareAddress : Word := 0x02000000

/-- The state with a halfword where its next fetch reads: at PC, or, where the map has no storage for it there, at
`spareAddress` with PC moved to it. -/
def withFetchHalf (s : State) (h : Half) : State :=
  let ready := readyToFetch s
  let here := placeHalf ready (pc ready) h
  if fetch here = h then here else placeHalf (writeReg ready pcReg spareAddress) spareAddress h

end Sys2Proof.Machine
end

