-- ==== Sys2Proof/Machine/Step.lean ====
section
/-! DEFINITION. One step (30_encoding.md rule R100): the checks, the fetch, the PC advance, decode and dispatch. -/

namespace Sys2Proof.Machine

/-- `step()` executes exactly one instruction (R100). A fault carries no state: the faulting step changes nothing (R14);
`recordFault` gives the state it leaves. -/
def step (s : State) : Host.Outcome State Fault Refusal :=
  match stepGuard s with
  | some f => .fault f
  | none => exec (decode (fetch s)) (advancePc s)

/-- The state with an instruction, numbered as spec/opcode_table.json numbers it, where step fetches next (log entry
4). -/
def State.withFetchWord (s : State) (nbits w : Nat) : State := withFetchHalf s (tableHalf nbits w)

end Sys2Proof.Machine
end

