-- ==== Sys2Proof/Machine/Run.lean ====
section
/-! DEFINITION. A run: steps and host operations in any order, each host operation between two steps (rules R14, R232, R276,
R278). -/

namespace Sys2Proof.Machine

/-- What one call of `step()` leaves: the next state, or after a fault the same state with its reason recorded (R14,
R232). No further step changes a faulted state. -/
def advance (s : State) : State :=
  match step s with
  | .next t => t
  | .fault f => recordFault s f
  | .refused _ => s

/-- One event of a run. -/
inductive Event where
  | step
  | host (op : HostOp)
  deriving DecidableEq, Repr

/-- The state after one event. -/
def runEvent (e : Event) (s : State) : State :=
  match e with
  | .step => advance s
  | .host op => runHostOp op s

/-- The state after a list of events, first one first. -/
def runEvents : List Event → State → State
  | [], s => s
  | e :: rest, s => runEvents rest (runEvent e s)

end Sys2Proof.Machine
end

