-- ==== Sys2Proof/Safety.lean ====
section
/-! DEFINITION. The terms claims use: states in which a step fetches, the invariant of the state record, which reads a store
can change, and what an instruction leaves as it was (frames). -/

namespace Sys2Proof.Machine

/-- A step of this state fetches: it is running, in Thumb state (R100). -/
def Runnable (s : State) : Prop := s.status = .running ∧ s.cpsr.t = true

/-! ### Places -/

/-- A region that stores every byte written to it and reads it back (R51, R54): plain RAM. -/
def Region.isRam : Region → Bool
  | .ewram | .iwram | .palette | .vram | .oam => true
  | .bios | .io | .rom | .unmapped => false

/-- The I/O offsets with logic of their own: DISPSTAT at 4 and 5, VCOUNT at 6 and 7 (R70, R77). -/
def isTypedIo (off : Nat) : Bool := 4 ≤ off && off ≤ 7

/-- The place is a plain read-write byte: RAM, or an I/O byte other than DISPSTAT and VCOUNT (R54, R77). -/
def Place.isPlain (p : Place) : Bool := p.region.isRam || (p.region == .io && !isTypedIo p.index)

/-- DISPSTAT's low byte: the flags and the enables (R72). -/
def dispstatLow : Place := ⟨.io, 4⟩

/-- DISPSTAT's high byte: LYC (R72). -/
def dispstatHigh : Place := ⟨.io, 5⟩

/-- A write at place `q` can change what a read at place `p` gives: the same byte, if it keeps writes at all, or
DISPSTAT's low byte after a write of LYC, which decides the VCount-match flag (R72). -/
def Place.dependsOn (p q : Place) : Bool :=
  (p == q && (q.isPlain || q == dispstatLow || q == dispstatHigh)) || (p == dispstatLow && q == dispstatHigh)

/-- The four byte addresses of a word access. -/
def wordBytes (a : Word) : List Word := [a, a + 1#32, a + 2#32, a + 3#32]

/-- The byte addresses of `n` consecutive words. -/
def runBytes : Nat → Word → List Word
  | 0, _ => []
  | n + 1, a => wordBytes a ++ runBytes n (a + 4#32)

/-! ### The invariant of the state record (R20) -/

/-- The regions that have backing bytes. -/
def backedRegions : List Region := [.bios, .ewram, .iwram, .io, .palette, .vram, .oam, .rom]

/-- The key is one of a byte the record of R20 has and something can write: DISPSTAT's and VCOUNT's offsets are fields
of their own. -/
def keyBacked (romSize k : Nat) : Bool :=
  backedRegions.any (fun r => r.base ≤ k && k < r.base + r.size romSize) &&
    !(Region.base .io + 4 ≤ k && k ≤ Region.base .io + 7)

/-- The memory is in canonical form and holds bytes of the record only, and DISPSTAT's shadow has no flag bit set
(R20, R73). -/
def MachineInv (s : State) : Prop :=
  s.mem.wf ∧ (∀ c ∈ s.mem, keyBacked s.romSize c.1 = true) ∧ s.dispstatShadow.extractLsb' 0 3 = 0

/-! ### Frames -/

/-- Every register outside the list is as it was. -/
def RegsKeptBut (s t : State) (rs : List Reg) : Prop := ∀ r, r ∉ rs → readReg t r = readReg s r

/-- N, Z, C and V are as they were. -/
def NzcvKept (s t : State) : Prop :=
  t.cpsr.n = s.cpsr.n ∧ t.cpsr.z = s.cpsr.z ∧ t.cpsr.c = s.cpsr.c ∧ t.cpsr.v = s.cpsr.v

/-- What no instruction writes is as it was: the status, the parameters, bios_loaded, N_rom, scanline and hblank. -/
def SystemKept (s t : State) : Prop :=
  t.status = s.status ∧ t.config = s.config ∧ t.biosLoaded = s.biosLoaded ∧ t.romSize = s.romSize ∧
    t.scanline = s.scanline ∧ t.hblank = s.hblank

/-- Every byte of the address space reads as it did, and so does the memory behind it. -/
def MemoryKept (s t : State) : Prop :=
  (∀ a, read8 t a = read8 s a) ∧ t.mem = s.mem ∧ t.dispstatShadow = s.dispstatShadow

/-- Every byte of the address space that depends on none of the stored addresses reads as it did. -/
def MemoryKeptOutside (s t : State) (stored : List Word) : Prop :=
  ∀ a, (∀ b ∈ stored, (resolve a).dependsOn (resolve b) = false) → read8 t a = read8 s a

/-- The four flags of an ALU result, and T as it was. -/
def FlagsAre (s t : State) (a : AluResult) : Prop :=
  t.cpsr.n = a.n ∧ t.cpsr.z = a.z ∧ t.cpsr.c = a.c ∧ t.cpsr.v = a.v ∧ t.cpsr.t = s.cpsr.t

/-- N and Z of a value; C, V and T as they were (R132). -/
def NzAre (s t : State) (v : Word) : Prop :=
  t.cpsr.n = v.getLsbD 31 ∧ (t.cpsr.z = true ↔ v = 0) ∧ t.cpsr.c = s.cpsr.c ∧ t.cpsr.v = s.cpsr.v ∧
    t.cpsr.t = s.cpsr.t

/-- One register has a value, every other register, all of memory and the rest of the machine are as they were. The
flags are said apart. -/
def OnlyRegister (s t : State) (rd : Reg) (v : Word) : Prop :=
  readReg t rd = v ∧ RegsKeptBut s t [rd] ∧ MemoryKept s t ∧ SystemKept s t

end Sys2Proof.Machine

namespace Sys2Proof

/-! ### What an instruction may write -/

/-- Which flags an instruction writes: N and Z, C and V, T (R28). -/
structure FlagWrites where
  nz : Bool
  cv : Bool
  t  : Bool
  deriving DecidableEq, Repr

/-- The list of R28, one line per instruction. -/
def Instr.flagWrites : Instr → FlagWrites
  | .movImm8 _ _ | .ldrPc _ _ | .ldrImm5 _ _ _ | .ldrbImm5 _ _ _ => ⟨true, false, false⟩
  | .addImm8 _ _ | .subImm8 _ _ | .addReg _ _ _ | .subReg _ _ _ | .addImm3 _ _ _ | .subImm3 _ _ _ | .cmpHi _ _ =>
    ⟨true, true, false⟩
  | .bx _ | .pop true _ => ⟨false, false, true⟩
  | .addHi _ _ | .movHi _ _ | .push _ _ | .pop false _ | .b _ | .bcond _ _ | .strImm5 _ _ _ | .strbImm5 _ _ _ |
    .fallback _ => ⟨false, false, false⟩

/-- The instruction may write SP: PUSH, POP, and the high-register ADD and MOV with destination 13 (R172). -/
def Instr.writesSp : Instr → Bool
  | .push _ _ | .pop _ _ => true
  | .addHi rd _ | .movHi rd _ => rd == Machine.spReg
  | .cmpHi _ _ | .bx _ | .addReg _ _ _ | .subReg _ _ _ | .addImm3 _ _ _ | .subImm3 _ _ _ | .movImm8 _ _ |
    .addImm8 _ _ | .subImm8 _ _ | .ldrPc _ _ | .strImm5 _ _ _ | .ldrImm5 _ _ _ | .strbImm5 _ _ _ |
    .ldrbImm5 _ _ _ | .b _ | .bcond _ _ | .fallback _ => false

end Sys2Proof
end

