-- ==== Sys2Proof/Certificates/Slice0/Obligations.lean ====
section
/-! DEFINITION. The statements for the provers. A docstring names the rules of spec/ a statement formalises, and where it
rests on one of the spec's own decisions (92_eei_decisions.md), on its general knowledge (93_implementation_defined.md), or
on a choice of this model, the log entry (notes/assumptions). -/

open Sys2Proof Sys2Proof.Machine

/-! ### Encoding -/

/-- Decoding the word of a well-formed instruction gives it back (R104 to R108; the opcode values are the spec's general
knowledge, log entry 5). -/
def Obligations.DecodeOfEncodeIsIdentity : Prop :=
  ∀ i : Instr, i.wellFormed = true → decode (encode i) = i

/-- Every word is some well-formed instruction's, and encoding gives the word back, but for the bits BX ignores
(R106, R161; decision D4, log entries 5 and 10). -/
def Obligations.EncodeOfDecodeIsIdentity : Prop :=
  ∀ w : Half, (decode w).wellFormed = true ∧
    encode (decode w) = if w &&& 0xFF00#16 = 0x4700#16 then w &&& 0xFF78#16 else w

/-- The words the decoder sends to the fallback are exactly the ranges of R221, CMP Rd,#imm8 and both BL halfwords among
them (R220 to R223; decision D28, log entries 5 and 15). -/
def Obligations.FallbackWordsAreTheListedRanges : Prop :=
  ∀ w : Half, (∃ u, decode w = .fallback u) ↔ inFallbackSpace w = true

/-- Words written out in the examples of 40_dataproc.md to 45_fallback.md, and 0x4709, 0xB500, 0x27FF and 0x7FC8 in the
vectors X-3, S-3, D-1 and L-14 of 95_test_vectors.md, decode to the instructions they stand for, one or more of each family
(log entry 5). -/
def Obligations.ExampleWordsDecode : Prop :=
  decode 0x4488 = .addHi 8 1 ∧ decode 0x4548 = .cmpHi 0 9 ∧ decode 0x469C = .movHi 12 3 ∧ decode 0x4709 = .bx 1 ∧
  decode 0x1A88 = .subReg 0 1 2 ∧ decode 0x1DDB = .addImm3 3 3 7 ∧ decode 0xB500 = .push true 0 ∧
  decode 0xBD01 = .pop true 1 ∧ decode 0x27FF = .movImm8 7 255 ∧ decode 0x380A = .subImm8 0 10 ∧
  decode 0x4803 = .ldrPc 0 3 ∧ decode 0x6051 = .strImm5 1 2 1 ∧ decode 0x7FC8 = .ldrbImm5 0 1 31 ∧
  decode 0xE7FF = .b 0x7FF ∧ decode 0xD1FD = .bcond .ne 0xFD ∧ decode 0x2800 = .fallback 0x2800

/-- Immediate assembly (R107): each field's value as a number, and the register list of PUSH and POP, ascending with one
register for each bit set, LR last (R170, R171). -/
def Obligations.ImmediatesHaveTheirAssembledValues : Prop :=
  (∀ imm : BitVec 8, (zextImm imm).toNat = imm.toNat) ∧
  (∀ imm : BitVec 3, (zextImm imm).toNat = imm.toNat) ∧
  (∀ imm : BitVec 5, (wordOffset imm).toNat = 4 * imm.toNat ∧ (byteOffset imm).toNat = imm.toNat) ∧
  (∀ (s : State) (imm : BitVec 8), literalAddress s imm = alignWord (pc s + 2#32) + BitVec.ofNat 32 (4 * imm.toNat)) ∧
  (∀ imm : BitVec 11, (bOffset imm).toInt = 2 * imm.toInt) ∧
  (∀ imm : BitVec 8, (bcondOffset imm).toInt = 2 * imm.toInt) ∧
  (∀ (rlist : BitVec 8) (r : Reg), r ∈ regList rlist ↔ r.val < 8 ∧ rlist.getLsbD r.val = true) ∧
  (∀ (lr : Bool) (rlist : BitVec 8),
    (pushList lr rlist).Pairwise (fun a b => a.val < b.val) ∧ (regList rlist).Pairwise (fun a b => a.val < b.val) ∧
    (pushList lr rlist).length = (List.range 8).countP (fun i => rlist.getLsbD i) + lr.toNat ∧
    (∀ r, r ∈ pushList lr rlist ↔ (r.val < 8 ∧ rlist.getLsbD r.val = true) ∨ (r = lrReg ∧ lr = true)))

/-! ### ALU and flags -/

/-- AddWithFlags (R130). -/
def Obligations.AddFlagsFollowCarryAndSigns : Prop :=
  ∀ a b : Word,
    let r := addWithFlags a b
    r.value.toNat = (a.toNat + b.toNat) % 2 ^ 32 ∧ r.n = r.value.getLsbD 31 ∧ (r.z = true ↔ r.value = 0) ∧
    (r.c = true ↔ 2 ^ 32 ≤ a.toNat + b.toNat) ∧
    r.v = (~~~(a ^^^ b) &&& (a ^^^ r.value)).getLsbD 31 ∧
    (r.v = true ↔ a.getLsbD 31 = b.getLsbD 31 ∧ r.value.getLsbD 31 ≠ a.getLsbD 31)

/-- SubWithFlags, minuend first (R131). -/
def Obligations.SubFlagsFollowBorrowAndSigns : Prop :=
  ∀ a b : Word,
    let r := subWithFlags a b
    r.value.toNat = (a.toNat + (2 ^ 32 - b.toNat)) % 2 ^ 32 ∧ r.n = r.value.getLsbD 31 ∧ (r.z = true ↔ r.value = 0) ∧
    (r.c = true ↔ b.toNat ≤ a.toNat) ∧
    r.v = ((a ^^^ b) &&& (a ^^^ r.value)).getLsbD 31 ∧
    (r.v = true ↔ a.getLsbD 31 ≠ b.getLsbD 31 ∧ r.value.getLsbD 31 ≠ a.getLsbD 31)

/-- The integer laws of R133, which the spec derives from R130 and R131: V is signed overflow, C of an addition is the carry
out of bit 31, C of a subtraction is no borrow. -/
def Obligations.OverflowFlagIsSignedOverflow : Prop :=
  ∀ a b : Word,
    ((addWithFlags a b).v = true ↔ a.toInt + b.toInt < -2 ^ 31 ∨ 2 ^ 31 ≤ a.toInt + b.toInt) ∧
    ((subWithFlags a b).v = true ↔ a.toInt - b.toInt < -2 ^ 31 ∨ 2 ^ 31 ≤ a.toInt - b.toInt) ∧
    ((addWithFlags a b).c = true ↔ 2 ^ 32 ≤ a.toNat + b.toNat) ∧
    ((subWithFlags a b).c = true ↔ b.toNat ≤ a.toNat) ∧
    (subWithFlags a 0).c = true ∧ (a.toNat < b.toNat → (subWithFlags a b).c = false)

/-- SetNZ and SetNZCV write the flags they name and nothing else; an instruction that writes no flag leaves all five
(R132). -/
def Obligations.FlagSettersWriteOnlyTheirFlags : Prop :=
  (∀ (s : State) (r : Word), NzAre s (setNZ s r) r ∧ RegsKeptBut s (setNZ s r) [] ∧ MemoryKept s (setNZ s r) ∧
    SystemKept s (setNZ s r)) ∧
  (∀ (s : State) (a : AluResult), FlagsAre s (setNZCV s a) a ∧ RegsKeptBut s (setNZCV s a) [] ∧
    MemoryKept s (setNZCV s a) ∧ SystemKept s (setNZCV s a)) ∧
  (∀ (i : Instr) (s t : State), i.flagWrites = ⟨false, false, false⟩ → exec i s = .next t → t.cpsr = s.cpsr)

/-- After a comparison each condition holds exactly when the relation of R182's meaning column does. The predicates are
the spec's general knowledge (G3, decision D7, log entry 6). -/
def Obligations.ConditionsAfterCompareAreComparisons : Prop :=
  ∀ (s : State) (a b : Word),
    let f := (setNZCV s (subWithFlags a b)).cpsr
    (conditionPassed f .eq = true ↔ a = b) ∧ (conditionPassed f .ne = true ↔ a ≠ b) ∧
    (conditionPassed f .cs = true ↔ b.toNat ≤ a.toNat) ∧ (conditionPassed f .cc = true ↔ a.toNat < b.toNat) ∧
    (conditionPassed f .hi = true ↔ b.toNat < a.toNat) ∧ (conditionPassed f .ls = true ↔ a.toNat ≤ b.toNat) ∧
    (conditionPassed f .ge = true ↔ b.toInt ≤ a.toInt) ∧ (conditionPassed f .lt = true ↔ a.toInt < b.toInt) ∧
    (conditionPassed f .gt = true ↔ b.toInt < a.toInt) ∧ (conditionPassed f .le = true ↔ a.toInt ≤ b.toInt) ∧
    (conditionPassed f .mi = true ↔ (a - b).toInt < 0) ∧ (conditionPassed f .pl = true ↔ 0 ≤ (a - b).toInt) ∧
    (conditionPassed f .vs = true ↔ (a - b).toInt ≠ a.toInt - b.toInt) ∧
    (conditionPassed f .vc = true ↔ (a - b).toInt = a.toInt - b.toInt) ∧
    conditionPassed f .al = true ∧ conditionPassed f .nv = false

/-! ### Data processing: what each instruction gives, and its frame -/

/-- MOV Rd,#imm8: the value, N and Z; C, V and everything else as before (effect of R134). -/
def Obligations.MovImmediateResult : Prop :=
  ∀ (rd : LowReg) (imm : BitVec 8) (s : State), ∃ t, exec (.movImm8 rd imm) s = .next t ∧
    OnlyRegister s t (lowReg rd) (zextImm imm) ∧ NzAre s t (zextImm imm) ∧ t.cpsr.n = false ∧
    (t.cpsr.z = true ↔ imm = 0)

/-- ADD and SUB Rd,#imm8 (effect of R135 and R136). -/
def Obligations.AddSubImmediateResult : Prop :=
  ∀ (rd : LowReg) (imm : BitVec 8) (s : State),
    (∃ t, exec (.addImm8 rd imm) s = .next t ∧
      OnlyRegister s t (lowReg rd) (readReg s (lowReg rd) + zextImm imm) ∧
      FlagsAre s t (addWithFlags (readReg s (lowReg rd)) (zextImm imm))) ∧
    (∃ t, exec (.subImm8 rd imm) s = .next t ∧
      OnlyRegister s t (lowReg rd) (readReg s (lowReg rd) - zextImm imm) ∧
      FlagsAre s t (subWithFlags (readReg s (lowReg rd)) (zextImm imm)))

/-- ADD and SUB Rd,Rs,Rn, operands read before the result is written (effect of R137 and R138). -/
def Obligations.AddSubRegisterResult : Prop :=
  ∀ (rd rs rn : LowReg) (s : State),
    (∃ t, exec (.addReg rd rs rn) s = .next t ∧
      OnlyRegister s t (lowReg rd) (readReg s (lowReg rs) + readReg s (lowReg rn)) ∧
      FlagsAre s t (addWithFlags (readReg s (lowReg rs)) (readReg s (lowReg rn)))) ∧
    (∃ t, exec (.subReg rd rs rn) s = .next t ∧
      OnlyRegister s t (lowReg rd) (readReg s (lowReg rs) - readReg s (lowReg rn)) ∧
      FlagsAre s t (subWithFlags (readReg s (lowReg rs)) (readReg s (lowReg rn))))

/-- ADD and SUB Rd,Rs,#imm3 (effect of R139 and R140). -/
def Obligations.AddSubImm3Result : Prop :=
  ∀ (rd rs : LowReg) (imm : BitVec 3) (s : State),
    (∃ t, exec (.addImm3 rd rs imm) s = .next t ∧
      OnlyRegister s t (lowReg rd) (readReg s (lowReg rs) + zextImm imm) ∧
      FlagsAre s t (addWithFlags (readReg s (lowReg rs)) (zextImm imm))) ∧
    (∃ t, exec (.subImm3 rd rs imm) s = .next t ∧
      OnlyRegister s t (lowReg rd) (readReg s (lowReg rs) - zextImm imm) ∧
      FlagsAre s t (subWithFlags (readReg s (lowReg rs)) (zextImm imm)))

/-- High-register ADD and MOV, any of r0 to r15: the value unchanged for a destination other than r15; for r15 unchanged
under HI_PC_WRITE = raw and with bit 0 cleared under clear_bit0; no flag (effect of R141, R142 and R144; the parameter is
the spec's decision D3, reading r15 as the post-fetch PC its decision D2, log entries 9 and 25). -/
def Obligations.HighRegisterAddMovResult : Prop :=
  ∀ (d r : Reg) (s : State),
    (∃ t, exec (.addHi d r) s = .next t ∧ t.cpsr = s.cpsr ∧ RegsKeptBut s t [d] ∧ MemoryKept s t ∧ SystemKept s t ∧
      (d ≠ pcReg → readReg t d = readReg s d + readReg s r) ∧
      (d = pcReg → s.config.hiPcWrite = .raw → pc t = pc s + readReg s r) ∧
      (d = pcReg → s.config.hiPcWrite = .clearBit0 → pc t = (pc s + readReg s r) &&& 0xFFFFFFFE#32)) ∧
    (∃ t, exec (.movHi d r) s = .next t ∧ t.cpsr = s.cpsr ∧ RegsKeptBut s t [d] ∧ MemoryKept s t ∧ SystemKept s t ∧
      (d ≠ pcReg → readReg t d = readReg s r) ∧
      (d = pcReg → s.config.hiPcWrite = .raw → pc t = readReg s r) ∧
      (d = pcReg → s.config.hiPcWrite = .clearBit0 → pc t = readReg s r &&& 0xFFFFFFFE#32))

/-- High-register CMP writes the four flags of the subtraction and no register (effect of R143). -/
def Obligations.HighRegisterCompareResult : Prop :=
  ∀ (d r : Reg) (s : State), ∃ t, exec (.cmpHi d r) s = .next t ∧
    FlagsAre s t (subWithFlags (readReg s d) (readReg s r)) ∧ RegsKeptBut s t [] ∧ MemoryKept s t ∧ SystemKept s t ∧
    (d = r → t.cpsr.z = true ∧ t.cpsr.c = true ∧ t.cpsr.n = false ∧ t.cpsr.v = false)

/-! ### Branches -/

/-- BX: T is bit 0 of the target; PC is the target aligned for the state entered; nothing else changes (effect of R160
and R161; decision D1 on what follows, log entry 8). -/
def Obligations.BranchExchangeResult : Prop :=
  ∀ (r : Reg) (s : State), ∃ t, exec (.bx r) s = .next t ∧
    t.cpsr.t = (readReg s r).getLsbD 0 ∧
    ((readReg s r).toNat % 2 = 1 → (pc t).toNat = (readReg s r).toNat - 1) ∧
    ((readReg s r).toNat % 2 = 0 → (pc t).toNat = (readReg s r).toNat - (readReg s r).toNat % 4) ∧
    NzcvKept s t ∧ RegsKeptBut s t [pcReg] ∧ MemoryKept s t ∧ SystemKept s t

/-- B adds twice the signed immediate to the post-fetch PC, modulo 2^32, and changes nothing else (effect of R180). -/
def Obligations.BranchResult : Prop :=
  ∀ (imm : BitVec 11) (s : State), ∃ t, exec (.b imm) s = .next t ∧
    OnlyRegister s t pcReg (pc s + BitVec.ofInt 32 (2 * imm.toInt)) ∧ t.cpsr = s.cpsr

/-- Bcond branches exactly when its condition holds, and otherwise changes nothing; the reserved condition never branches
and AL always does (effect of R181). -/
def Obligations.ConditionalBranchResult : Prop :=
  ∀ (c : Cond) (imm : BitVec 8) (s : State),
    (∃ t, exec (.bcond c imm) s = .next t ∧ t.cpsr = s.cpsr ∧
      OnlyRegister s t pcReg
        (if conditionPassed s.cpsr c then pc s + BitVec.ofInt 32 (2 * imm.toInt) else pc s)) ∧
    (exec (.bcond .nv imm) s = .next s) ∧
    (∃ t, exec (.bcond .al imm) s = .next t ∧ pc t = pc s + BitVec.ofInt 32 (2 * imm.toInt))

/-! ### Stack -/

/-- PUSH: SP goes down by four times the number of registers; each register's word stands little-endian at its address,
ascending, LR last, wherever the map keeps plain bytes; every other byte of memory, every other register and all flags
stay (effect of R170; no alignment at an unaligned SP is the spec's decision D5, log entry 11). -/
def Obligations.PushResult : Prop :=
  ∀ (lr : Bool) (rlist : BitVec 8) (s : State), ∃ t, exec (.push lr rlist) s = .next t ∧
    sp t = pushBase s lr rlist ∧
    pushBase s lr rlist = sp s - BitVec.ofNat 32 (4 * (pushList lr rlist).length) ∧
    (∀ (k j : Nat) (hk : k < (pushList lr rlist).length), j < 4 →
      (resolve (pushBase s lr rlist + BitVec.ofNat 32 (4 * k + j))).isPlain = true →
      read8 t (pushBase s lr rlist + BitVec.ofNat 32 (4 * k + j)) = byteOf (readReg s (pushList lr rlist)[k]) j) ∧
    MemoryKeptOutside s t (runBytes (pushList lr rlist).length (pushBase s lr rlist)) ∧
    RegsKeptBut s t [spReg] ∧ t.cpsr = s.cpsr ∧ SystemKept s t

/-- POP without PC: each listed register has the word at its address, ascending from SP; SP goes up past them; no flag,
no other register and no byte of memory changes (effect of R171; decision D5, log entry 11). -/
def Obligations.PopRegistersResult : Prop :=
  ∀ (rlist : BitVec 8) (s : State), ∃ t, exec (.pop false rlist) s = .next t ∧
    (∀ (k : Nat) (hk : k < (regList rlist).length),
      readReg t (regList rlist)[k] = read32 s (sp s + BitVec.ofNat 32 (4 * k))) ∧
    sp t = sp s + BitVec.ofNat 32 (4 * (regList rlist).length) ∧
    RegsKeptBut s t (spReg :: regList rlist) ∧ t.cpsr = s.cpsr ∧ MemoryKept s t ∧ SystemKept s t

/-- POP with PC: as without, and one more word is the target of a state-switching branch: T and PC as BX would set them
(effect of R171; decisions D1 and D5, log entries 8 and 11). -/
def Obligations.PopProgramCounterResult : Prop :=
  ∀ (rlist : BitVec 8) (s : State), ∃ t, exec (.pop true rlist) s = .next t ∧
    (∀ (k : Nat) (hk : k < (regList rlist).length),
      readReg t (regList rlist)[k] = read32 s (sp s + BitVec.ofNat 32 (4 * k))) ∧
    sp t = sp s + BitVec.ofNat 32 (4 * ((regList rlist).length + 1)) ∧
    (let target := read32 s (sp s + BitVec.ofNat 32 (4 * (regList rlist).length))
     t.cpsr.t = target.getLsbD 0 ∧
       pc t = if target.getLsbD 0 then target &&& 0xFFFFFFFE#32 else target &&& 0xFFFFFFFC#32) ∧
    RegsKeptBut s t (spReg :: pcReg :: regList rlist) ∧ NzcvKept s t ∧ MemoryKept s t ∧ SystemKept s t

/-- A POP of the registers a PUSH stored gives them back and restores SP, where the stack lies in plain storage (R170,
R171; decision D5, log entry 11). -/
def Obligations.PopUndoesPush : Prop :=
  ∀ (rlist : BitVec 8) (s : State),
    (∀ m, m < 4 * (regList rlist).length →
      (resolve (pushBase s false rlist + BitVec.ofNat 32 m)).isPlain = true) →
    ∃ t u, exec (.push false rlist) s = .next t ∧ exec (.pop false rlist) t = .next u ∧ RegsKeptBut s u [] ∧
      u.cpsr = s.cpsr

/-- Only PUSH, POP and the high-register ADD and MOV with destination 13 write SP; none of them checks its value: each
completes from every state; and SP is 0 after CPU reset (R172). -/
def Obligations.StackPointerDiscipline : Prop :=
  (∀ (i : Instr) (s t : State), i.writesSp = false → exec i s = .next t → sp t = sp s) ∧
  (∀ (i : Instr) (s : State), i.writesSp = true → ∃ t, exec i s = .next t) ∧
  (∀ s : State, sp (cpuReset s) = 0)

/-! ### Loads and stores -/

/-- The rotate primitive (R212). -/
def Obligations.RotateRightPrimitive : Prop :=
  ∀ (v : Word) (n : Nat),
    ror32 v n = (if n % 32 = 0 then v else (v >>> (n % 32)) ||| (v <<< (32 - n % 32))) ∧
    ∀ i, i < 32 → (ror32 v n).getLsbD i = v.getLsbD ((i + n) % 32)

/-- LDR Rd,[PC,#imm8*4]: the word at the aligned PC + 2 plus the offset, N and Z (effect of R200). -/
def Obligations.LiteralLoadResult : Prop :=
  ∀ (rd : LowReg) (imm : BitVec 8) (s : State), ∃ t, exec (.ldrPc rd imm) s = .next t ∧
    (let v := read32 s (((pc s + 2#32) &&& 0xFFFFFFFC#32) + BitVec.ofNat 32 (4 * imm.toNat))
     OnlyRegister s t (lowReg rd) v ∧ NzAre s t v)

/-- LDR Rd,[Rb,#imm5*4]: the aligned word rotated right by eight times the misalignment, N and Z (effect of R202 and
R210). -/
def Obligations.LoadWordResult : Prop :=
  ∀ (rd rb : LowReg) (imm : BitVec 5) (s : State), ∃ t, exec (.ldrImm5 rd rb imm) s = .next t ∧
    (let a := readReg s (lowReg rb) + BitVec.ofNat 32 (4 * imm.toNat)
     let v := (read32 s (a &&& 0xFFFFFFFC#32)).rotateRight (8 * (a.toNat % 4))
     OnlyRegister s t (lowReg rd) v ∧ NzAre s t v)

/-- LDRB Rd,[Rb,#imm5]: the byte, zero-extended, N and Z (effect of R204; zero extension is the spec's decision D6, log
entry 12). -/
def Obligations.LoadByteResult : Prop :=
  ∀ (rd rb : LowReg) (imm : BitVec 5) (s : State), ∃ t, exec (.ldrbImm5 rd rb imm) s = .next t ∧
    (let v := (read8 s (readReg s (lowReg rb) + BitVec.ofNat 32 imm.toNat)).setWidth 32
     OnlyRegister s t (lowReg rd) v ∧ NzAre s t v ∧ t.cpsr.n = false)

/-- STR Rd,[Rb,#imm5*4]: the value rotated left by eight times the misalignment, written as a word at the aligned
address; each of its bytes reads back where the map keeps plain bytes; every other byte, every register and every flag
stays (effect of R201 and R211). -/
def Obligations.StoreWordResult : Prop :=
  ∀ (rd rb : LowReg) (imm : BitVec 5) (s : State), ∃ t, exec (.strImm5 rd rb imm) s = .next t ∧
    wordAddress s rb imm = readReg s (lowReg rb) + BitVec.ofNat 32 (4 * imm.toNat) ∧
    (let a := wordAddress s rb imm
     let v := (readReg s (lowReg rd)).rotateLeft (8 * (a.toNat % 4))
     t = write32 s (a &&& 0xFFFFFFFC#32) v ∧
     (∀ j, j < 4 → (resolve (alignWord a + BitVec.ofNat 32 j)).isPlain = true →
       read8 t (alignWord a + BitVec.ofNat 32 j) = byteOf v j) ∧
     MemoryKeptOutside s t (wordBytes (alignWord a))) ∧
    RegsKeptBut s t [] ∧ t.cpsr = s.cpsr ∧ SystemKept s t

/-- STRB Rd,[Rb,#imm5]: the low byte at the address; it reads back where the map keeps plain bytes; every other byte,
every register and every flag stays (effect of R203; the low byte is the spec's decision D6, log entry 12). -/
def Obligations.StoreByteResult : Prop :=
  ∀ (rd rb : LowReg) (imm : BitVec 5) (s : State), ∃ t, exec (.strbImm5 rd rb imm) s = .next t ∧
    byteAddress s rb imm = readReg s (lowReg rb) + BitVec.ofNat 32 imm.toNat ∧
    t = write8 s (byteAddress s rb imm) ((readReg s (lowReg rd)).extractLsb' 0 8) ∧
    ((resolve (byteAddress s rb imm)).isPlain = true →
      read8 t (byteAddress s rb imm) = (readReg s (lowReg rd)).extractLsb' 0 8) ∧
    MemoryKeptOutside s t [byteAddress s rb imm] ∧
    RegsKeptBut s t [] ∧ t.cpsr = s.cpsr ∧ SystemKept s t

/-- A rotated load after a rotated store at the same address, aligned or not, gives the value stored, where the aligned
word is plain storage (the consequence R211 draws from R210 and R212). -/
def Obligations.RotatedStoreThenLoadIsIdentity : Prop :=
  ∀ (s : State) (a v : Word),
    (∀ j, j < 4 → (resolve (alignWord a + BitVec.ofNat 32 j)).isPlain = true) →
    loadWordRotated (storeWordRotated s a v) a = v

/-! ### Fallback -/

/-- A fallback word does nothing under UNIMPL_POLICY = nop, and under fault ends the step with its word (R220; the
parameter is the spec's decision D15, log entry 15). -/
def Obligations.FallbackFollowsThePolicy : Prop :=
  ∀ (w : Half) (s : State),
    (s.config.unimplPolicy = .nop → exec (.fallback w) s = .next s) ∧
    (s.config.unimplPolicy = .fault → exec (.fallback w) s = .fault (.raised (.unimplemented w)))

/-! ### Memory and I/O -/

/-- The unmapped ranges of R65, read as open bus and written without effect, are exactly the addresses in no region. -/
def Obligations.UnmappedRangesAreOpenBus : Prop :=
  ∀ (s : State) (a : Word) (v : Byte),
    ((resolve a).region = .unmapped ↔
      (0x00004000 ≤ a.toNat ∧ a.toNat < 0x02000000) ∨ (0x02040000 ≤ a.toNat ∧ a.toNat < 0x03000000) ∨
      (0x03008000 ≤ a.toNat ∧ a.toNat < 0x04000000) ∨ (0x04000400 ≤ a.toNat ∧ a.toNat < 0x05000000) ∨
      (0x06020000 ≤ a.toNat ∧ a.toNat < 0x07000000) ∨ 0x0E000000 ≤ a.toNat) ∧
    ((resolve a).region = .unmapped → read8 s a = 0xFF#8 ∧ write8 s a v = s)

/-- After reset, with no BIOS and no cartridge, every address outside EWRAM, IWRAM, I/O, palette, VRAM and OAM reads
0xFF (95_test_vectors.md E1), and every plain byte reads 0. -/
def Obligations.ResetReadsOpenBusOutsideRam : Prop :=
  ∀ a : Word,
    ((resolve a).region.isRam = false → (resolve a).region ≠ .io → read8 State.reset a = 0xFF#8) ∧
    ((resolve a).isPlain = true → read8 State.reset a = 0#8)

/-- A byte written to plain storage reads back through every address that names it, and every byte that does not depend
on it reads as before (R54; 95_test_vectors.md E2). -/
def Obligations.ByteWriteThenRead : Prop :=
  ∀ (s : State) (a b : Word) (v : Byte),
    ((resolve b).isPlain = true → resolve a = resolve b → read8 (write8 s b v) a = v) ∧
    ((resolve a).dependsOn (resolve b) = false → read8 (write8 s b v) a = read8 s a)

/-- Palette and OAM repeat every 1 KiB across 16 MiB, for reads and writes alike: a write through any mirror is seen
through every mirror (R61, R63). -/
def Obligations.PaletteAndOamMirrors : Prop :=
  ∀ (s : State) (j k : Nat) (v : Byte), j < 0x01000000 → k < 0x01000000 →
    (resolve (BitVec.ofNat 32 (0x05000000 + k)) = ⟨.palette, k % 0x400⟩ ∧
      read8 s (BitVec.ofNat 32 (0x05000000 + k)) = read8 s (BitVec.ofNat 32 (0x05000000 + k % 0x400)) ∧
      write8 s (BitVec.ofNat 32 (0x05000000 + k)) v = write8 s (BitVec.ofNat 32 (0x05000000 + k % 0x400)) v ∧
      (j % 0x400 = k % 0x400 →
        read8 (write8 s (BitVec.ofNat 32 (0x05000000 + k)) v) (BitVec.ofNat 32 (0x05000000 + j)) = v)) ∧
    (resolve (BitVec.ofNat 32 (0x07000000 + k)) = ⟨.oam, k % 0x400⟩ ∧
      read8 s (BitVec.ofNat 32 (0x07000000 + k)) = read8 s (BitVec.ofNat 32 (0x07000000 + k % 0x400)) ∧
      write8 s (BitVec.ofNat 32 (0x07000000 + k)) v = write8 s (BitVec.ofNat 32 (0x07000000 + k % 0x400)) v ∧
      (j % 0x400 = k % 0x400 →
        read8 (write8 s (BitVec.ofNat 32 (0x07000000 + k)) v) (BitVec.ofNat 32 (0x07000000 + j)) = v))

/-- VRAM offsets at or above 96 KiB alias offsets 0 to 32 KiB within the 128 KiB window, and the next 128 KiB are not
VRAM (R62; where the window ends is the spec's decision D9, log entry 13). -/
def Obligations.VramAliasesInsideItsWindow : Prop :=
  ∀ (s : State) (k : Nat),
    (k < 0x8000 → read8 s (BitVec.ofNat 32 (0x06018000 + k)) = read8 s (BitVec.ofNat 32 (0x06000000 + k))) ∧
    (k < 0x18000 → resolve (BitVec.ofNat 32 (0x06000000 + k)) = ⟨.vram, k⟩) ∧
    (k < 0xFE0000 → read8 s (BitVec.ofNat 32 (0x06020000 + k)) = 0xFF#8)

/-- A cartridge image of N bytes shows as byte i mod N at offset i of each of the three windows; an empty one reads 0xFF
(R64, R272; any length is the spec's decision D31, log entry 18). -/
def Obligations.CartridgeRepeatsInEveryWindow : Prop :=
  ∀ (s : State) (image : List Byte) (i : Nat), i < 0x02000000 →
    let t := (loadGamepakBytes image s).2
    (∀ h : 0 < image.length,
      read8 t (BitVec.ofNat 32 (0x08000000 + i)) = image[i % image.length]'(Nat.mod_lt _ h) ∧
      read8 t (BitVec.ofNat 32 (0x0A000000 + i)) = image[i % image.length]'(Nat.mod_lt _ h) ∧
      read8 t (BitVec.ofNat 32 (0x0C000000 + i)) = image[i % image.length]'(Nat.mod_lt _ h)) ∧
    (image.length = 0 →
      read8 t (BitVec.ofNat 32 (0x08000000 + i)) = 0xFF#8 ∧ read8 t (BitVec.ofNat 32 (0x0A000000 + i)) = 0xFF#8 ∧
      read8 t (BitVec.ofNat 32 (0x0C000000 + i)) = 0xFF#8)

/-- BIOS reads are open bus until a load succeeds and then the image, zero-filled to 16 KiB; a failed load changes
nothing; no write changes the machine; bus reset unloads it; a load touches no CPU state and no byte outside the BIOS
(R57, R270, R273; an empty or long image is the spec's decision D22, log entry 18). -/
def Obligations.BiosReadsItsLoadedImage : Prop :=
  (∀ (s : State) (image : List Byte) (a : Word) (v : Byte), a.toNat < 0x4000 →
    (s.biosLoaded = false → read8 s a = 0xFF#8) ∧
    (loadBios (some image) s).1 = true ∧ (loadBios (some image) s).2.biosLoaded = true ∧
    read8 (loadBios (some image) s).2 a = image.getD a.toNat 0#8 ∧
    loadBios none s = (false, s) ∧ write8 s a v = s ∧ (busReset s).biosLoaded = false) ∧
  (∀ (s : State) (image : List Byte),
    let t := (loadBios (some image) s).2
    RegsKeptBut s t [] ∧ t.cpsr = s.cpsr ∧ t.status = s.status ∧ t.config = s.config ∧ t.romSize = s.romSize ∧
    t.dispstatShadow = s.dispstatShadow ∧ t.scanline = s.scanline ∧ t.hblank = s.hblank ∧
    ∀ a : Word, (resolve a).region ≠ .bios → read8 t a = read8 s a)

/-- After a word write to plain storage the halfwords and bytes inside it are the word's lanes, low byte lowest, and the
fetch reads with the same order (R66). -/
def Obligations.LittleEndianLanes : Prop :=
  (∀ (s : State) (a w : Word), (∀ j, j < 4 → (resolve (a + BitVec.ofNat 32 j)).isPlain = true) →
    read32 (write32 s a w) a = w ∧ read16 (write32 s a w) a = w.extractLsb' 0 16 ∧
    read16 (write32 s a w) (a + 2#32) = w.extractLsb' 16 16 ∧
    ∀ k, k < 4 → read8 (write32 s a w) (a + BitVec.ofNat 32 k) = w.extractLsb' (8 * k) 8) ∧
  (∀ (s : State) (a : Word),
    (read16 s a).toNat = (read8 s a).toNat + 256 * (read8 s (a + 1#32)).toNat ∧
    (read32 s a).toNat = (read8 s a).toNat + 2 ^ 8 * (read8 s (a + 1#32)).toNat +
      2 ^ 16 * (read8 s (a + 2#32)).toNat + 2 ^ 24 * (read8 s (a + 3#32)).toNat) ∧
  (∀ s : State, (fetch s).toNat = (read8 s (pc s)).toNat + 256 * (read8 s (pc s + 1#32)).toNat)

/-- DISPSTAT reads as its stored bits 15 to 3 over the three computed flags, when the shadow has no flag bit set, which
`MachineInv` keeps (R72; the flags' bits are the spec's general knowledge G5, the width of the comparison its decision
D12, log entry 7). -/
def Obligations.DispstatReadsFlagsOverStorage : Prop :=
  ∀ s : State, s.dispstatShadow.extractLsb' 0 3 = 0 →
    let r := read16 s 0x04000004#32
    (r.getLsbD 0 = true ↔ 160 ≤ s.scanline.toNat) ∧ r.getLsbD 1 = s.hblank ∧
    (r.getLsbD 2 = true ↔ s.scanline.toNat = s.dispstatShadow.toNat / 256) ∧
    (∀ k, 3 ≤ k → k < 16 → r.getLsbD k = s.dispstatShadow.getLsbD k)

/-- A write of DISPSTAT stores bits 3 to 15 and discards bits 0 to 2, at every access width (R73). The register's address
is the spec's general knowledge (G4, log entry 7). -/
def Obligations.DispstatWriteKeepsWritableBits : Prop :=
  ∀ (s : State) (v : Half) (w : Word) (b : Byte),
    write16 s 0x04000004#32 v = { s with dispstatShadow := v &&& 0xFFF8#16 } ∧
    write32 s 0x04000004#32 w = { s with dispstatShadow := w.extractLsb' 0 16 &&& 0xFFF8#16 } ∧
    (write8 s 0x04000004#32 b).dispstatShadow = s.dispstatShadow.extractLsb' 8 8 ++ (b &&& 0xF8#8) ∧
    (write8 s 0x04000005#32 b).dispstatShadow = b ++ s.dispstatShadow.extractLsb' 0 8

/-- VCOUNT reads the scanline the host last set and is 0 after bus reset; a byte or halfword written to it changes nothing,
and no write of any width, at any address, changes it: a word write at DISPSTAT or at VCOUNT drops the VCOUNT bytes (R75,
R76; its address is general knowledge G4, log entry 7). -/
def Obligations.VcountIsReadOnly : Prop :=
  (∀ (s : State) (v : Half), read16 (setScanline v s) 0x04000006#32 = v) ∧
  (∀ (s : State) (a : Word) (v : Byte), a = 0x04000006#32 ∨ a = 0x04000007#32 → write8 s a v = s) ∧
  (∀ (s : State) (v : Half), write16 s 0x04000006#32 v = s) ∧
  (∀ (s : State) (a : Word) (b : Byte) (v : Half) (w : Word),
    (write8 s a b).scanline = s.scanline ∧ read16 (write8 s a b) 0x04000006#32 = read16 s 0x04000006#32 ∧
    (write16 s a v).scanline = s.scanline ∧ read16 (write16 s a v) 0x04000006#32 = read16 s 0x04000006#32 ∧
    (write32 s a w).scanline = s.scanline ∧ read16 (write32 s a w) 0x04000006#32 = read16 s 0x04000006#32) ∧
  (∀ (s : State) (w : Word),
    write32 s 0x04000004#32 w = write16 s 0x04000004#32 (w.extractLsb' 0 16) ∧
    write32 s 0x04000006#32 w = write16 s 0x04000008#32 (w.extractLsb' 16 16)) ∧
  (∀ s : State, read16 (busReset s) 0x04000006#32 = 0)

/-- DISPCNT is 16 opaque read-write bits: what is written reads back, and the write changes no register, flag or other
part of the machine (R71; its storage is the spec's decision D13, its address general knowledge G4, log entry 7). -/
def Obligations.DispcntReadsBackAsWritten : Prop :=
  ∀ (s : State) (v : Half),
    read16 (write16 s 0x04000000#32 v) 0x04000000#32 = v ∧
    RegsKeptBut s (write16 s 0x04000000#32 v) [] ∧ (write16 s 0x04000000#32 v).cpsr = s.cpsr ∧
    MemoryKeptOutside s (write16 s 0x04000000#32 v) [0x04000000#32, 0x04000001#32] ∧
    SystemKept s (write16 s 0x04000000#32 v)

/-! ### The step cycle and whole-machine rules -/

/-- When the bytes at PC decode to an instruction, a step of a running machine in Thumb state is that instruction on the
state with PC moved on by 2, modulo 2^32 (R24, R25, R100). -/
def Obligations.StepRunsTheDecodedInstruction : Prop :=
  ∀ (s : State) (i : Instr), Runnable s →
    decodeBytes [read8 s (pc s), read8 s (pc s + 1#32)] = .ok (i, []) →
    step s = exec i (writeReg s pcReg (pc s + 2#32))

/-- A step that begins in ARM state raises ArmStateUnimplemented; under UNIMPL_POLICY = fault a fallback word raises
Unimplemented of that word; a step of a faulted machine is no step; the status is looked at before T (R100, R220, R234).
Each leaves everything but the status, the fetch and the PC advance included, and no further step changes a faulted
state; CPU reset makes it run again (R14, R232, R264). The hard error is the spec's decision D1, the policy its decision
D15, and the name of the stop in a faulted state this model's choice (log entries 2, 8 and 15). -/
def Obligations.FaultsStopTheMachine : Prop :=
  ∀ (s : State) (r : FaultReason),
    (s.status = .running → s.cpsr.t = false → step s = .fault (.raised .armStateUnimplemented) ∧
      advance s = { s with status := .faulted .armStateUnimplemented }) ∧
    (Runnable s → s.config.unimplPolicy = .fault → inFallbackSpace (fetch s) = true →
      step s = .fault (.raised (.unimplemented (fetch s))) ∧
      advance s = { s with status := .faulted (.unimplemented (fetch s)) }) ∧
    (s.status = .faulted r → step s = .fault (.notRunning r) ∧ advance s = s) ∧
    (cpuReset s).status = .running ∧ (cpuReset s).cpsr.t = true

/-- Under UNIMPL_POLICY = nop no step of a running machine in Thumb state stops, whatever the memory holds (R230, R231;
the default policy is the source's, log entry 15). -/
def Obligations.NoStepStopsUnderNop : Prop :=
  ∀ s : State, Runnable s → s.config.unimplPolicy = .nop → ∃ t, step s = .next t

/-- Which instructions write which flags (R28): an instruction leaves N and Z, C and V, and T unless the list names it
for them; the ones it is named for it writes, so that they do not depend on what the flags were; CPU reset writes T. -/
def Obligations.FlagWritersAreTheListed : Prop :=
  (∀ (i : Instr) (s t : State), exec i s = .next t →
    (i.flagWrites.nz = false → t.cpsr.n = s.cpsr.n ∧ t.cpsr.z = s.cpsr.z) ∧
    (i.flagWrites.cv = false → t.cpsr.c = s.cpsr.c ∧ t.cpsr.v = s.cpsr.v) ∧
    (i.flagWrites.t = false → t.cpsr.t = s.cpsr.t)) ∧
  (∀ (i : Instr) (f : Cpsr) (s t u : State), exec i s = .next t → exec i { s with cpsr := f } = .next u →
    (i.flagWrites.nz = true → u.cpsr.n = t.cpsr.n ∧ u.cpsr.z = t.cpsr.z) ∧
    (i.flagWrites.cv = true → u.cpsr.c = t.cpsr.c ∧ u.cpsr.v = t.cpsr.v) ∧
    (i.flagWrites.t = true → u.cpsr.t = t.cpsr.t)) ∧
  (∀ s : State, (cpuReset s).cpsr.t = true)

/-- A step changes no BIOS byte, no cartridge byte and no unmapped byte, and not bios_loaded, N_rom, scanline or hblank,
which only the host can (R33, R54, R57, R64). That a step that completes keeps the parameters and the status is this
model's own: it holds the parameters in the state and nothing writes them (log entry 1), and a fault's outcome carries the
reason that recordFault puts in the status (log entry 2). -/
def Obligations.StepsCannotChangeReadOnlyState : Prop :=
  ∀ s t : State, step s = .next t →
    SystemKept s t ∧
    ∀ a : Word, (resolve a).region = .bios ∨ (resolve a).region = .rom ∨ (resolve a).region = .unmapped →
      read8 t a = read8 s a

/-- An instruction that is not PUSH, STR or STRB, and completes, leaves every address reading as before: no other rule of
40_dataproc.md to 45_fallback.md writes memory, and reads have no side effect (R52, R54, R68). -/
def Obligations.OnlyStoresChangeMemory : Prop :=
  ∀ (i : Instr) (s t : State), exec i s = .next t →
    (∀ lr rlist, i ≠ .push lr rlist) → (∀ rd rb imm, i ≠ .strImm5 rd rb imm) →
    (∀ rd rb imm, i ≠ .strbImm5 rd rb imm) → MemoryKept s t

/-- The invariant of the state record holds after reset. The record and its values are the spec's (R20, R34); the memory as
one canonical list, and which keys it may hold, is this model's form of the record (log entry 3). -/
def Obligations.ResetMeetsTheInvariant : Prop :=
  MachineInv State.reset

/-- Every step keeps the invariant of the state record: the memory's canonical form and no byte outside the record, which is
this model's form of it (log entry 3; the record is R20, what a write reaches R54), and no flag bit in DISPSTAT's shadow
(R73). -/
def Obligations.StepKeepsTheInvariant : Prop :=
  ∀ s t : State, MachineInv s → step s = .next t → MachineInv t

/-- Every run of steps and host operations, from any state that meets it, keeps the invariant. The operations are those of
R260 to R276; the form of the memory in the invariant is this model's (log entry 3), and so is a run as a list of steps
and host operations (log entry 20). -/
def Obligations.RunsKeepTheInvariant : Prop :=
  ∀ (events : List Event) (s : State), MachineInv s → MachineInv (runEvents events s)

/-- With HI_PC_WRITE = clear_bit0 a step keeps an even PC even, in ARM state a multiple of 4 (R26, R160, R183; the
parameter is the spec's decision D3, log entry 25). -/
def Obligations.ClearBit0KeepsPcEven : Prop :=
  ∀ s t : State, s.config.hiPcWrite = .clearBit0 → (pc s).toNat % 2 = 0 → step s = .next t →
    (pc t).toNat % 2 = 0 ∧ (t.cpsr.t = false → (pc t).toNat % 4 = 0)

/-- A halfword just stored at PC in plain storage is the one the next step fetches (R88, R281; decision D17, log entry
16). -/
def Obligations.FetchSeesEveryStore : Prop :=
  ∀ (s : State) (h : Half), (resolve (pc s)).isPlain = true → (resolve (pc s + 1#32)).isPlain = true →
    Runnable s → step (write16 s (pc s) h) = exec (decode h) (advancePc (write16 s (pc s) h))

/-- This model's way to place an instruction: after withFetchWord the next step runs exactly the placed word, from any
state (log entry 4). -/
def Obligations.PlacedWordIsExecutedNext : Prop :=
  ∀ (s : State) (nbits w : Nat),
    Runnable (s.withFetchWord nbits w) ∧ fetch (s.withFetchWord nbits w) = tableHalf nbits w ∧
    step (s.withFetchWord nbits w) = exec (decode (tableHalf nbits w)) (advancePc (s.withFetchWord nbits w))

/-! ### Reset and the host interface -/

/-- Bus reset followed by CPU reset leaves the values of R34 from any state, and that state is State.reset when the
parameters are the defaults (R34, R263, R264; holding the parameters in the state is this model's choice, log entry
1). -/
def Obligations.ResetLeavesTheListedValues : Prop :=
  ∀ s : State,
    let t := cpuReset (busReset s)
    (∀ r, readReg t r = 0) ∧ t.cpsr = ⟨false, false, false, false, true⟩ ∧ readCpsr t = 0x00000020#32 ∧
    t.status = .running ∧ (∀ p : Place, backing t p = 0#8) ∧ t.biosLoaded = false ∧ t.romSize = 0 ∧
    t.dispstatShadow = 0 ∧ t.scanline = 0 ∧ t.hblank = false ∧ t.config = s.config ∧
    (s.config = Config.standard → t = State.reset)

/-- Bus reset zeroes all backing memory and the I/O registers, unloads BIOS and cartridge, and touches no CPU state; CPU
reset zeroes the registers, leaves T alone set, runs the machine, and touches no memory (R34, R263, R264). DISPSTAT's value
after bus reset is derived in R78 and rests on the spec's decisions D10 and D11 (log entry 7); the status after CPU reset
rests on its decision D1 (log entries 2 and 8). -/
def Obligations.ResetsAreIndependent : Prop :=
  ∀ s : State,
    ((∀ p : Place, backing (busReset s) p = 0#8) ∧ (busReset s).biosLoaded = false ∧ (busReset s).romSize = 0 ∧
      (busReset s).scanline = 0 ∧ (busReset s).hblank = false ∧ (busReset s).dispstatShadow = 0 ∧
      RegsKeptBut s (busReset s) [] ∧ (busReset s).cpsr = s.cpsr ∧ (busReset s).status = s.status ∧
      read16 (busReset s) 0x04000004#32 = 0x0004#16) ∧
    ((∀ r, readReg (cpuReset s) r = 0) ∧ (cpuReset s).cpsr = ⟨false, false, false, false, true⟩ ∧
      readCpsr (cpuReset s) = 0x00000020#32 ∧ (cpuReset s).status = .running ∧
      MemoryKept s (cpuReset s) ∧ (cpuReset s).biosLoaded = s.biosLoaded ∧ (cpuReset s).romSize = s.romSize ∧
      (cpuReset s).scanline = s.scanline ∧ (cpuReset s).hblank = s.hblank)

/-- Cartridge loads: from bytes always succeeds and replaces the image; from a file it fails, changing nothing, when the
file is unreadable or empty (R271, R272, R273; the empty file is the spec's decision D21, log entry 18). No load touches
the CPU or any byte outside the cartridge. -/
def Obligations.CartridgeLoadsSucceedOrChangeNothing : Prop :=
  (∀ (image : List Byte) (s : State),
    (loadGamepakBytes image s).1 = true ∧ (loadGamepakBytes image s).2.romSize = image.length) ∧
  (∀ s : State, loadGamepakFile none s = (false, s) ∧ loadGamepakFile (some []) s = (false, s)) ∧
  (∀ (x : Byte) (rest : List Byte) (s : State),
    loadGamepakFile (some (x :: rest)) s = (true, (loadGamepakBytes (x :: rest) s).2)) ∧
  (∀ (image : List Byte) (s : State) (a : Word), (resolve a).region ≠ .rom →
    read8 (loadGamepakBytes image s).2 a = read8 s a) ∧
  (∀ (image : List Byte) (s : State), (loadGamepakBytes image s).2.regs = s.regs ∧
    (loadGamepakBytes image s).2.cpsr = s.cpsr ∧ (loadGamepakBytes image s).2.status = s.status)

/-- The setters and debug accessors (R27, R274, R275): the index is masked to 0 to 15, setReg keeps the value and setPc
clears bit 0 (decision D23, log entry 19), and the CPSR word has its five bits and no other (log entry 27). setReg and setPc
change one register and nothing else; setScanline changes the scanline, setHblank the HBlank input, and nothing else: what
can read differently is DISPSTAT's low byte, and after setScanline VCOUNT. -/
def Obligations.DebugAccessorsReachTheNamedState : Prop :=
  (∀ (s : State) (i : Nat) (v : Word), getReg i s = getReg (i % 16) s ∧ getReg i (setReg i v s) = v ∧
    (∀ j, j % 16 ≠ i % 16 → getReg j (setReg i v s) = getReg j s) ∧
    (setReg i v s).cpsr = s.cpsr ∧ MemoryKept s (setReg i v s) ∧ SystemKept s (setReg i v s)) ∧
  (∀ (s : State) (v : Word), (getPc (setPc v s)).toNat = v.toNat - v.toNat % 2 ∧ RegsKeptBut s (setPc v s) [pcReg] ∧
    (setPc v s).cpsr = s.cpsr ∧ MemoryKept s (setPc v s) ∧ SystemKept s (setPc v s)) ∧
  (∀ s : State, getPc s = getReg 15 s) ∧
  (∀ (s : State) (k : Nat), (readCpsr s).getLsbD k =
    if k = 31 then s.cpsr.n else if k = 30 then s.cpsr.z else if k = 29 then s.cpsr.c else if k = 28 then s.cpsr.v
    else if k = 5 then s.cpsr.t else false) ∧
  (∀ (s : State) (v : Half), setScanline v s = { s with scanline := v } ∧
    ∀ a : Word, a ≠ 0x04000004#32 → a ≠ 0x04000006#32 → a ≠ 0x04000007#32 → read8 (setScanline v s) a = read8 s a) ∧
  (∀ (s : State) (b : Bool), setHblank b s = { s with hblank := b } ∧
    ∀ a : Word, a ≠ 0x04000004#32 → read8 (setHblank b s) a = read8 s a)
end

