-- ==== Sys2Proof/Laws/State.lean ====
section
/-! SUPPORT. One lemma per field per update of State, each true by rfl, and the register file's read-after-write laws. -/

namespace Sys2Proof.Machine

variable (s : State)

/-! ### writeReg -/

@[simp] theorem writeReg_cpsr (r : Reg) (v : Word) : (writeReg s r v).cpsr = s.cpsr := rfl
@[simp] theorem writeReg_status (r : Reg) (v : Word) : (writeReg s r v).status = s.status := rfl
@[simp] theorem writeReg_mem (r : Reg) (v : Word) : (writeReg s r v).mem = s.mem := rfl
@[simp] theorem writeReg_biosLoaded (r : Reg) (v : Word) : (writeReg s r v).biosLoaded = s.biosLoaded := rfl
@[simp] theorem writeReg_romSize (r : Reg) (v : Word) : (writeReg s r v).romSize = s.romSize := rfl
@[simp] theorem writeReg_dispstatShadow (r : Reg) (v : Word) :
    (writeReg s r v).dispstatShadow = s.dispstatShadow := rfl
@[simp] theorem writeReg_scanline (r : Reg) (v : Word) : (writeReg s r v).scanline = s.scanline := rfl
@[simp] theorem writeReg_hblank (r : Reg) (v : Word) : (writeReg s r v).hblank = s.hblank := rfl
@[simp] theorem writeReg_config (r : Reg) (v : Word) : (writeReg s r v).config = s.config := rfl

/-- Reading a register after a write: the value written, or what was there. -/
theorem readReg_writeReg (r q : Reg) (v : Word) :
    readReg (writeReg s r v) q = if q = r then v else readReg s q := by
  by_cases h : q = r
  · subst h; simp [readReg, writeReg]
  · have h' : r.val ≠ q.val := fun e => h (Fin.ext e.symm)
    simp [readReg, writeReg, h, h']

@[simp] theorem readReg_writeReg_same (r : Reg) (v : Word) : readReg (writeReg s r v) r = v := by
  simp [readReg_writeReg]

theorem readReg_writeReg_ne {r q : Reg} (v : Word) (h : q ≠ r) :
    readReg (writeReg s r v) q = readReg s q := by
  simp [readReg_writeReg, h]

/-! ### setNZ and setNZCV -/

@[simp] theorem setNZ_regs (r : Word) : (setNZ s r).regs = s.regs := rfl
@[simp] theorem setNZ_n (r : Word) : (setNZ s r).cpsr.n = r.msb := rfl
@[simp] theorem setNZ_z (r : Word) : (setNZ s r).cpsr.z = (r == 0) := rfl
@[simp] theorem setNZ_c (r : Word) : (setNZ s r).cpsr.c = s.cpsr.c := rfl
@[simp] theorem setNZ_v (r : Word) : (setNZ s r).cpsr.v = s.cpsr.v := rfl
@[simp] theorem setNZ_t (r : Word) : (setNZ s r).cpsr.t = s.cpsr.t := rfl
@[simp] theorem setNZ_status (r : Word) : (setNZ s r).status = s.status := rfl
@[simp] theorem setNZ_mem (r : Word) : (setNZ s r).mem = s.mem := rfl
@[simp] theorem setNZ_biosLoaded (r : Word) : (setNZ s r).biosLoaded = s.biosLoaded := rfl
@[simp] theorem setNZ_romSize (r : Word) : (setNZ s r).romSize = s.romSize := rfl
@[simp] theorem setNZ_dispstatShadow (r : Word) : (setNZ s r).dispstatShadow = s.dispstatShadow := rfl
@[simp] theorem setNZ_scanline (r : Word) : (setNZ s r).scanline = s.scanline := rfl
@[simp] theorem setNZ_hblank (r : Word) : (setNZ s r).hblank = s.hblank := rfl
@[simp] theorem setNZ_config (r : Word) : (setNZ s r).config = s.config := rfl
@[simp] theorem readReg_setNZ (r : Word) (q : Reg) : readReg (setNZ s r) q = readReg s q := rfl

@[simp] theorem setNZCV_regs (a : AluResult) : (setNZCV s a).regs = s.regs := rfl
@[simp] theorem setNZCV_n (a : AluResult) : (setNZCV s a).cpsr.n = a.n := rfl
@[simp] theorem setNZCV_z (a : AluResult) : (setNZCV s a).cpsr.z = a.z := rfl
@[simp] theorem setNZCV_c (a : AluResult) : (setNZCV s a).cpsr.c = a.c := rfl
@[simp] theorem setNZCV_v (a : AluResult) : (setNZCV s a).cpsr.v = a.v := rfl
@[simp] theorem setNZCV_t (a : AluResult) : (setNZCV s a).cpsr.t = s.cpsr.t := rfl
@[simp] theorem setNZCV_status (a : AluResult) : (setNZCV s a).status = s.status := rfl
@[simp] theorem setNZCV_mem (a : AluResult) : (setNZCV s a).mem = s.mem := rfl
@[simp] theorem setNZCV_biosLoaded (a : AluResult) : (setNZCV s a).biosLoaded = s.biosLoaded := rfl
@[simp] theorem setNZCV_romSize (a : AluResult) : (setNZCV s a).romSize = s.romSize := rfl
@[simp] theorem setNZCV_dispstatShadow (a : AluResult) : (setNZCV s a).dispstatShadow = s.dispstatShadow := rfl
@[simp] theorem setNZCV_scanline (a : AluResult) : (setNZCV s a).scanline = s.scanline := rfl
@[simp] theorem setNZCV_hblank (a : AluResult) : (setNZCV s a).hblank = s.hblank := rfl
@[simp] theorem setNZCV_config (a : AluResult) : (setNZCV s a).config = s.config := rfl
@[simp] theorem readReg_setNZCV (a : AluResult) (q : Reg) : readReg (setNZCV s a) q = readReg s q := rfl

/-! ### setBacking -/

@[simp] theorem setBacking_regs (p : Place) (v : Byte) : (setBacking s p v).regs = s.regs := rfl
@[simp] theorem setBacking_cpsr (p : Place) (v : Byte) : (setBacking s p v).cpsr = s.cpsr := rfl
@[simp] theorem setBacking_status (p : Place) (v : Byte) : (setBacking s p v).status = s.status := rfl
@[simp] theorem setBacking_mem (p : Place) (v : Byte) : (setBacking s p v).mem = Memory.write s.mem p.key v := rfl
@[simp] theorem setBacking_biosLoaded (p : Place) (v : Byte) : (setBacking s p v).biosLoaded = s.biosLoaded := rfl
@[simp] theorem setBacking_romSize (p : Place) (v : Byte) : (setBacking s p v).romSize = s.romSize := rfl
@[simp] theorem setBacking_dispstatShadow (p : Place) (v : Byte) :
    (setBacking s p v).dispstatShadow = s.dispstatShadow := rfl
@[simp] theorem setBacking_scanline (p : Place) (v : Byte) : (setBacking s p v).scanline = s.scanline := rfl
@[simp] theorem setBacking_hblank (p : Place) (v : Byte) : (setBacking s p v).hblank = s.hblank := rfl
@[simp] theorem setBacking_config (p : Place) (v : Byte) : (setBacking s p v).config = s.config := rfl

/-! ### recordFault -/

@[simp] theorem recordFault_regs (f : Fault) : (recordFault s f).regs = s.regs := rfl
@[simp] theorem recordFault_cpsr (f : Fault) : (recordFault s f).cpsr = s.cpsr := rfl
@[simp] theorem recordFault_status (f : Fault) : (recordFault s f).status = .faulted f.reason := rfl
@[simp] theorem recordFault_mem (f : Fault) : (recordFault s f).mem = s.mem := rfl
@[simp] theorem recordFault_biosLoaded (f : Fault) : (recordFault s f).biosLoaded = s.biosLoaded := rfl
@[simp] theorem recordFault_romSize (f : Fault) : (recordFault s f).romSize = s.romSize := rfl
@[simp] theorem recordFault_dispstatShadow (f : Fault) : (recordFault s f).dispstatShadow = s.dispstatShadow := rfl
@[simp] theorem recordFault_scanline (f : Fault) : (recordFault s f).scanline = s.scanline := rfl
@[simp] theorem recordFault_hblank (f : Fault) : (recordFault s f).hblank = s.hblank := rfl
@[simp] theorem recordFault_config (f : Fault) : (recordFault s f).config = s.config := rfl

/-! ### setThumb -/

@[simp] theorem setThumb_cpsr (b : Bool) : (setThumb s b).cpsr = { s.cpsr with t := b } := rfl
@[simp] theorem setThumb_status (b : Bool) : (setThumb s b).status = s.status := rfl
@[simp] theorem setThumb_mem (b : Bool) : (setThumb s b).mem = s.mem := rfl
@[simp] theorem setThumb_biosLoaded (b : Bool) : (setThumb s b).biosLoaded = s.biosLoaded := rfl
@[simp] theorem setThumb_romSize (b : Bool) : (setThumb s b).romSize = s.romSize := rfl
@[simp] theorem setThumb_dispstatShadow (b : Bool) : (setThumb s b).dispstatShadow = s.dispstatShadow := rfl
@[simp] theorem setThumb_scanline (b : Bool) : (setThumb s b).scanline = s.scanline := rfl
@[simp] theorem setThumb_hblank (b : Bool) : (setThumb s b).hblank = s.hblank := rfl
@[simp] theorem setThumb_config (b : Bool) : (setThumb s b).config = s.config := rfl
@[simp] theorem readReg_setThumb (b : Bool) (q : Reg) : readReg (setThumb s b) q = readReg s q := rfl

/-! ### interworkBranch: T and PC, nothing else (R160) -/

@[simp] theorem interworkBranch_n (t : Word) : (interworkBranch s t).cpsr.n = s.cpsr.n := by
  unfold interworkBranch; split <;> rfl
@[simp] theorem interworkBranch_z (t : Word) : (interworkBranch s t).cpsr.z = s.cpsr.z := by
  unfold interworkBranch; split <;> rfl
@[simp] theorem interworkBranch_c (t : Word) : (interworkBranch s t).cpsr.c = s.cpsr.c := by
  unfold interworkBranch; split <;> rfl
@[simp] theorem interworkBranch_v (t : Word) : (interworkBranch s t).cpsr.v = s.cpsr.v := by
  unfold interworkBranch; split <;> rfl
@[simp] theorem interworkBranch_t (t : Word) : (interworkBranch s t).cpsr.t = t.getLsbD 0 := by
  unfold interworkBranch; split <;> simp_all
@[simp] theorem interworkBranch_status (t : Word) : (interworkBranch s t).status = s.status := by
  unfold interworkBranch; split <;> rfl
@[simp] theorem interworkBranch_mem (t : Word) : (interworkBranch s t).mem = s.mem := by
  unfold interworkBranch; split <;> rfl
@[simp] theorem interworkBranch_biosLoaded (t : Word) : (interworkBranch s t).biosLoaded = s.biosLoaded := by
  unfold interworkBranch; split <;> rfl
@[simp] theorem interworkBranch_romSize (t : Word) : (interworkBranch s t).romSize = s.romSize := by
  unfold interworkBranch; split <;> rfl
@[simp] theorem interworkBranch_dispstatShadow (t : Word) :
    (interworkBranch s t).dispstatShadow = s.dispstatShadow := by
  unfold interworkBranch; split <;> rfl
@[simp] theorem interworkBranch_scanline (t : Word) : (interworkBranch s t).scanline = s.scanline := by
  unfold interworkBranch; split <;> rfl
@[simp] theorem interworkBranch_hblank (t : Word) : (interworkBranch s t).hblank = s.hblank := by
  unfold interworkBranch; split <;> rfl
@[simp] theorem interworkBranch_config (t : Word) : (interworkBranch s t).config = s.config := by
  unfold interworkBranch; split <;> rfl

/-- The registers after a state-switching branch: PC has the aligned target, the rest stay. -/
theorem readReg_interworkBranch (t : Word) (q : Reg) :
    readReg (interworkBranch s t) q =
      if q = pcReg then (if t.getLsbD 0 then t &&& 0xFFFFFFFE#32 else t &&& 0xFFFFFFFC#32) else readReg s q := by
  unfold interworkBranch
  split <;> simp [readReg_writeReg]

end Sys2Proof.Machine
end

