-- ==== Sys2Proof/Laws/Memory.lean ====
section
/-! SUPPORT. The laws of the backing memory: read after write, and the canonical form kept by every memory operation. -/

namespace Sys2Proof.Machine

/-! ### Read after write, on any memory, canonical or not -/

theorem Memory.read_erase (m : Memory) (k j : Nat) :
    Memory.read (Memory.erase m k) j = if j = k then Memory.unlisted else Memory.read m j := by
  induction m with
  | nil => simp [Memory.erase, Memory.read]
  | cons c rest ih =>
    by_cases hc : c.1 = k
    · have e : Memory.erase (c :: rest) k = Memory.erase rest k := by simp [Memory.erase, hc]
      rw [e, ih]
      by_cases hj : j = k
      · simp [hj]
      · have : ¬ k = j := fun e => hj e.symm
        simp [Memory.read, hc, hj, this]
    · have e : Memory.erase (c :: rest) k = c :: Memory.erase rest k := by simp [Memory.erase, hc]
      rw [e]
      by_cases hj : c.1 = j
      · subst hj; simp [Memory.read, hc]
      · simp [Memory.read, ih, hj]

/-- Inserting at a key that has no entry. -/
theorem Memory.read_insertCell {m : Memory} {k : Nat} (hk : ∀ c ∈ m, c.1 ≠ k) (j : Nat) (v : Byte) :
    Memory.read (Memory.insertCell m k v) j = if j = k then v else Memory.read m j := by
  induction m with
  | nil =>
    by_cases hj : j = k
    · simp [Memory.insertCell, Memory.read, hj]
    · have : ¬ k = j := fun e => hj e.symm
      simp [Memory.insertCell, Memory.read, hj, this]
  | cons c rest ih =>
    have hc : c.1 ≠ k := hk c (by simp)
    have ih := ih (fun d hd => hk d (by simp [hd]))
    unfold Memory.insertCell
    split
    · by_cases hj : j = k
      · simp [Memory.read, hj]
      · have : ¬ k = j := fun e => hj e.symm
        simp [Memory.read, hj, this]
    · by_cases hj : j = k
      · subst hj; simp [Memory.read, hc, ih]
      · by_cases hcj : c.1 = j <;> simp [Memory.read, hcj, ih, hj]

/-- A read after a write: the value written there, what was there elsewhere. -/
theorem Memory.read_write (m : Memory) (k j : Nat) (v : Byte) :
    Memory.read (Memory.write m k v) j = if j = k then v else Memory.read m j := by
  unfold Memory.write
  split
  · rename_i hv; rw [Memory.read_erase, hv]
  · rw [Memory.read_insertCell (by simp [Memory.erase]), Memory.read_erase]
    by_cases hj : j = k <;> simp [hj]

@[simp] theorem Memory.read_write_same (m : Memory) (k : Nat) (v : Byte) :
    Memory.read (Memory.write m k v) k = v := by
  simp [Memory.read_write]

theorem Memory.read_write_ne (m : Memory) {k j : Nat} (v : Byte) (h : j ≠ k) :
    Memory.read (Memory.write m k v) j = Memory.read m j := by
  simp [Memory.read_write, h]

/-! ### What a write can list -/

theorem Memory.mem_erase {m : Memory} {k : Nat} {c : Host.Cell} (h : c ∈ Memory.erase m k) : c ∈ m :=
  List.mem_of_mem_filter h

theorem Memory.mem_insertCell {m : Memory} {k : Nat} {v : Byte} {c : Host.Cell}
    (h : c ∈ Memory.insertCell m k v) : c = (k, v) ∨ c ∈ m := by
  induction m with
  | nil => simpa [Memory.insertCell] using h
  | cons d rest ih =>
    unfold Memory.insertCell at h
    split at h
    · simpa using h
    · rcases List.mem_cons.mp h with h | h
      · exact .inr (by simp [h])
      · rcases ih h with h | h
        · exact .inl h
        · exact .inr (by simp [h])

/-- A cell of a written memory is the one written or an old one. -/
theorem Memory.mem_write {m : Memory} {k : Nat} {v : Byte} {c : Host.Cell}
    (h : c ∈ Memory.write m k v) : c = (k, v) ∨ c ∈ m := by
  unfold Memory.write at h
  split at h
  · exact .inr (Memory.mem_erase h)
  · rcases Memory.mem_insertCell h with h | h
    · exact .inl h
    · exact .inr (Memory.mem_erase h)

/-! ### The canonical form -/

theorem Memory.wf_nil : Memory.wf ([] : Memory) := by simp [Memory.wf]

theorem Memory.wf_filter {m : Memory} (h : Memory.wf m) (p : Host.Cell → Bool) : Memory.wf (m.filter p) :=
  ⟨h.1.filter p, fun c hc => h.2 c (List.mem_of_mem_filter hc)⟩

theorem Memory.wf_erase {m : Memory} (h : Memory.wf m) (k : Nat) : Memory.wf (Memory.erase m k) :=
  Memory.wf_filter h _

theorem Memory.wf_insertCell {m : Memory} (h : Memory.wf m) {k : Nat} {v : Byte}
    (hk : ∀ c ∈ m, c.1 ≠ k) (hv : v ≠ Memory.unlisted) : Memory.wf (Memory.insertCell m k v) := by
  induction m with
  | nil => simpa [Memory.wf, Memory.insertCell] using hv
  | cons c rest ih =>
    have hp := List.pairwise_cons.mp h.1
    have hrest : Memory.wf rest := ⟨hp.2, fun d hd => h.2 d (by simp [hd])⟩
    unfold Memory.insertCell
    split
    · rename_i hlt
      refine ⟨List.pairwise_cons.mpr ⟨?_, h.1⟩, ?_⟩
      · intro d hd
        rcases List.mem_cons.mp hd with rfl | hd
        · exact hlt
        · exact Nat.lt_trans hlt (hp.1 d hd)
      · intro d hd
        rcases List.mem_cons.mp hd with rfl | hd
        · exact hv
        · exact h.2 d hd
    · rename_i hge
      have hck : c.1 < k := by have := hk c (by simp); omega
      have ih := ih hrest (fun d hd => hk d (by simp [hd]))
      refine ⟨List.pairwise_cons.mpr ⟨?_, ih.1⟩, ?_⟩
      · intro d hd
        rcases Memory.mem_insertCell hd with rfl | hd
        · exact hck
        · exact hp.1 d hd
      · intro d hd
        rcases List.mem_cons.mp hd with rfl | hd
        · exact h.2 d (by simp)
        · exact ih.2 d hd

/-- A write keeps the canonical form. -/
theorem Memory.wf_write {m : Memory} (h : Memory.wf m) (k : Nat) (v : Byte) : Memory.wf (Memory.write m k v) := by
  unfold Memory.write
  split
  · exact Memory.wf_erase h k
  · rename_i hv
    exact Memory.wf_insertCell (Memory.wf_erase h k) (by simp [Memory.erase]) hv

theorem Memory.mem_cellsFrom {b : List Byte} {k : Nat} {c : Host.Cell} (h : c ∈ cellsFrom k b) :
    k ≤ c.1 ∧ c.1 < k + b.length ∧ c.2 ≠ Memory.unlisted := by
  induction b generalizing k with
  | nil => simp [cellsFrom] at h
  | cons x rest ih =>
    unfold cellsFrom at h
    split at h
    · obtain ⟨h1, h2, h3⟩ := ih h
      exact ⟨by omega, by simp only [List.length_cons]; omega, h3⟩
    · rcases List.mem_cons.mp h with rfl | h
      · rename_i hx
        exact ⟨Nat.le_refl _, by simp, hx⟩
      · obtain ⟨h1, h2, h3⟩ := ih h
        exact ⟨by omega, by simp only [List.length_cons]; omega, h3⟩

theorem Memory.wf_cellsFrom (k : Nat) (b : List Byte) : Memory.wf (cellsFrom k b) := by
  refine ⟨?_, fun c hc => (Memory.mem_cellsFrom hc).2.2⟩
  induction b generalizing k with
  | nil => simp [cellsFrom]
  | cons x rest ih =>
    unfold cellsFrom
    split
    · exact ih _
    · exact List.pairwise_cons.mpr ⟨fun d hd => by have := (Memory.mem_cellsFrom hd).1; simp only; omega, ih _⟩

theorem Memory.wf_append {m n : Memory} (hm : Memory.wf m) (hn : Memory.wf n)
    (h : ∀ c ∈ m, ∀ d ∈ n, c.1 < d.1) : Memory.wf (m ++ n) := by
  refine ⟨List.pairwise_append.mpr ⟨hm.1, hn.1, h⟩, ?_⟩
  intro c hc
  rcases List.mem_append.mp hc with hc | hc
  · exact hm.2 c hc
  · exact hn.2 c hc

/-- A BIOS load keeps the canonical form. -/
theorem Memory.wf_loadBios {s : State} (h : Memory.wf s.mem) (image : Option (List Byte)) :
    Memory.wf (loadBios image s).2.mem := by
  cases image with
  | none => exact h
  | some b =>
    refine Memory.wf_append (Memory.wf_cellsFrom _ _) (Memory.wf_filter h _) ?_
    intro c hc d hd
    have h1 := (Memory.mem_cellsFrom hc).2.1
    have h2 : biosSize ≤ d.1 := by simpa [Memory.atOrAbove] using (List.mem_filter.mp hd).2
    simp only [List.length_take, biosSize] at h1 h2
    omega

/-- A cartridge load keeps the canonical form. -/
theorem Memory.wf_setRom {s : State} (h : Memory.wf s.mem) (b : List Byte) : Memory.wf (setRom b s).mem := by
  refine Memory.wf_append (Memory.wf_filter h _) (Memory.wf_cellsFrom _ _) ?_
  intro c hc d hd
  have h1 := (Memory.mem_cellsFrom hd).1
  have h2 : c.1 < Region.base .rom := by simpa [Memory.below] using (List.mem_filter.mp hc).2
  omega

/-! ### Reading a loaded image -/

theorem Memory.read_append (m n : Memory) (k : Nat) (h : ∀ c ∈ m, c.1 ≠ k) :
    Memory.read (m ++ n) k = Memory.read n k := by
  induction m with
  | nil => rfl
  | cons c rest ih =>
    have hc := h c (by simp)
    simp [Memory.read, hc, ih (fun d hd => h d (by simp [hd]))]

theorem Memory.read_append_left (m n : Memory) (k : Nat) (h : ∀ c ∈ n, c.1 ≠ k) :
    Memory.read (m ++ n) k = Memory.read m k := by
  induction m with
  | nil =>
    induction n with
    | nil => rfl
    | cons c rest ih =>
      have hc := h c (by simp)
      have := ih (fun d hd => h d (by simp [hd]))
      simpa [Memory.read, hc] using this
  | cons c rest ih => simp only [List.cons_append, Memory.read, ih]

/-- Byte `i` of a loaded image is its byte `i`, or 0 past its end. -/
theorem Memory.read_cellsFrom (b : List Byte) (k i : Nat) :
    Memory.read (cellsFrom k b) (k + i) = b.getD i Memory.unlisted := by
  induction b generalizing k i with
  | nil => simp [cellsFrom, Memory.read]
  | cons x rest ih =>
    cases i with
    | zero =>
      unfold cellsFrom
      split
      · rename_i hx
        have hno : ∀ c ∈ cellsFrom (k + 1) rest, c.1 ≠ k := fun c hc => by
          have := (Memory.mem_cellsFrom hc).1; omega
        have := Memory.read_append (cellsFrom (k + 1) rest) [] k hno
        simpa [Memory.read, hx] using this
      · simp [Memory.read]
    | succ i =>
      have := ih (k + 1) i
      have e : k + 1 + i = k + (i + 1) := by omega
      rw [e] at this
      unfold cellsFrom
      split
      · simpa using this
      · have hne : k ≠ k + (i + 1) := by omega
        simpa [Memory.read, hne] using this

/-! ### What a load leaves -/

/-- Reading a kept key of a filtered memory. -/
theorem Memory.read_filter (m : Memory) (p : Nat → Bool) {k : Nat} (h : p k = true) :
    Memory.read (m.filter (fun c => p c.1)) k = Memory.read m k := by
  induction m with
  | nil => rfl
  | cons c rest ih =>
    by_cases hc : p c.1 = true
    · simp only [List.filter_cons_of_pos (p := fun c : Host.Cell => p c.1) hc, Memory.read, ih]
    · have hne : c.1 ≠ k := fun e => hc (e ▸ h)
      rw [List.filter_cons_of_neg (p := fun c : Host.Cell => p c.1) hc, ih]
      simp [Memory.read, hne]

/-- A BIOS load leaves every byte past the BIOS. -/
theorem Memory.read_loadBios (s : State) (image : Option (List Byte)) {k : Nat} (h : biosSize ≤ k) :
    Memory.read (loadBios image s).2.mem k = Memory.read s.mem k := by
  cases image with
  | none => rfl
  | some b =>
    have hno : ∀ c ∈ cellsFrom 0 (b.take biosSize), c.1 ≠ k := fun c hc => by
      have := (Memory.mem_cellsFrom hc).2.1
      simp only [List.length_take] at this
      omega
    exact (Memory.read_append _ _ k hno).trans
      (Memory.read_filter s.mem (fun j => decide (biosSize ≤ j)) (decide_eq_true h))

/-- A cartridge load leaves every byte below the cartridge. -/
theorem Memory.read_setRom (s : State) (b : List Byte) {k : Nat} (h : k < Region.base .rom) :
    Memory.read (setRom b s).mem k = Memory.read s.mem k := by
  have hno : ∀ c ∈ cellsFrom (Region.base .rom) b, c.1 ≠ k := fun c hc => by
    have := (Memory.mem_cellsFrom hc).1
    omega
  exact (Memory.read_append_left _ _ k hno).trans
    (Memory.read_filter s.mem (fun j => decide (j < Region.base .rom)) (decide_eq_true h))

end Sys2Proof.Machine
end

