-- ==== Sys2Proof/Laws/Access.lean ====
section
/-! SUPPORT. What a byte write can do, said once: which fields it touches, what a read gives after it, and that it keeps the
invariant of the state record. Wide writes follow. -/

namespace Sys2Proof.Machine

variable (s : State)

/-! ### Keys -/

/-- Backed bytes of one state have one key each. -/
theorem key_inj {n i j : Nat} {r q : Region} (hi : i < r.size n) (hj : j < q.size n)
    (h : r.base + i = q.base + j) : r = q ∧ i = j := by
  cases r <;> cases q <;> simp only [Region.base, Region.size] at hi hj h <;>
    first
      | (refine ⟨rfl, ?_⟩; omega)
      | (exfalso; omega)

/-- The index of a resolved address lies inside its region's backing bytes; for the cartridge, inside its window. -/
theorem resolve_index_lt (a : Word) (n : Nat) (hr : (resolve a).region ≠ .rom) (hu : (resolve a).region ≠ .unmapped) :
    (resolve a).index < (resolve a).region.size n := by
  unfold resolve at *
  simp only at *
  split_ifs at * <;> simp_all [Region.size, vramIndex] <;> (try split) <;> omega

/-! ### The I/O bytes -/

/-- DISPSTAT's high byte reads as LYC, whatever the flags (R72). -/
theorem ioRead8_five : ioRead8 s 5 = lyc s := by
  ext i hi
  simp [ioRead8, dispstatRead16, lyc, BitVec.getElem_extractLsb', BitVec.getLsbD_ofBool]
  omega

/-- A read of an I/O byte other than DISPSTAT's sees the backing bytes and the scanline only. -/
theorem ioRead8_congr_of_ne {s t : State} {off : Nat} (h4 : off ≠ 4) (h5 : off ≠ 5) (hm : t.mem = s.mem)
    (hl : t.scanline = s.scanline) : ioRead8 t off = ioRead8 s off := by
  unfold ioRead8
  split <;> simp_all [backing]

/-! ### The fields a byte write leaves alone -/

/-- A byte write either changes nothing, replaces one backing byte, or replaces DISPSTAT's stored bits (R54, R74). -/
theorem write8_cases (a : Word) (v : Byte) :
    write8 s a v = s ∨
    ((resolve a).isPlain = true ∧ write8 s a v = setBacking s (resolve a) v) ∨
    ((resolve a) = dispstatLow ∧
      write8 s a v = { s with dispstatShadow := s.dispstatShadow.extractLsb' 8 8 ++ (v &&& 0xF8#8) }) ∨
    ((resolve a) = dispstatHigh ∧
      write8 s a v = { s with dispstatShadow := v ++ s.dispstatShadow.extractLsb' 0 8 }) := by
  unfold write8
  rcases h : resolve a with ⟨r, i⟩
  cases r <;> simp only [Place.isPlain, Region.isRam, dispstatLow, dispstatHigh] <;> try simp
  unfold ioWrite8
  split <;> simp_all [isTypedIo]
  omega

@[simp] theorem write8_regs (a : Word) (v : Byte) : (write8 s a v).regs = s.regs := by
  rcases write8_cases s a v with h | ⟨-, h⟩ | ⟨-, h⟩ | ⟨-, h⟩ <;> simp [h]
@[simp] theorem write8_cpsr (a : Word) (v : Byte) : (write8 s a v).cpsr = s.cpsr := by
  rcases write8_cases s a v with h | ⟨-, h⟩ | ⟨-, h⟩ | ⟨-, h⟩ <;> simp [h]
@[simp] theorem write8_status (a : Word) (v : Byte) : (write8 s a v).status = s.status := by
  rcases write8_cases s a v with h | ⟨-, h⟩ | ⟨-, h⟩ | ⟨-, h⟩ <;> simp [h]
@[simp] theorem write8_biosLoaded (a : Word) (v : Byte) : (write8 s a v).biosLoaded = s.biosLoaded := by
  rcases write8_cases s a v with h | ⟨-, h⟩ | ⟨-, h⟩ | ⟨-, h⟩ <;> simp [h]
@[simp] theorem write8_romSize (a : Word) (v : Byte) : (write8 s a v).romSize = s.romSize := by
  rcases write8_cases s a v with h | ⟨-, h⟩ | ⟨-, h⟩ | ⟨-, h⟩ <;> simp [h]
@[simp] theorem write8_scanline (a : Word) (v : Byte) : (write8 s a v).scanline = s.scanline := by
  rcases write8_cases s a v with h | ⟨-, h⟩ | ⟨-, h⟩ | ⟨-, h⟩ <;> simp [h]
@[simp] theorem write8_hblank (a : Word) (v : Byte) : (write8 s a v).hblank = s.hblank := by
  rcases write8_cases s a v with h | ⟨-, h⟩ | ⟨-, h⟩ | ⟨-, h⟩ <;> simp [h]
@[simp] theorem write8_config (a : Word) (v : Byte) : (write8 s a v).config = s.config := by
  rcases write8_cases s a v with h | ⟨-, h⟩ | ⟨-, h⟩ | ⟨-, h⟩ <;> simp [h]
@[simp] theorem readReg_write8 (a : Word) (v : Byte) (r : Reg) : readReg (write8 s a v) r = readReg s r := by
  simp [readReg]

@[simp] theorem write16_regs (a : Word) (v : Half) : (write16 s a v).regs = s.regs := by simp [write16]
@[simp] theorem write16_cpsr (a : Word) (v : Half) : (write16 s a v).cpsr = s.cpsr := by simp [write16]
@[simp] theorem write16_status (a : Word) (v : Half) : (write16 s a v).status = s.status := by simp [write16]
@[simp] theorem write16_biosLoaded (a : Word) (v : Half) : (write16 s a v).biosLoaded = s.biosLoaded := by
  simp [write16]
@[simp] theorem write16_romSize (a : Word) (v : Half) : (write16 s a v).romSize = s.romSize := by simp [write16]
@[simp] theorem write16_scanline (a : Word) (v : Half) : (write16 s a v).scanline = s.scanline := by simp [write16]
@[simp] theorem write16_hblank (a : Word) (v : Half) : (write16 s a v).hblank = s.hblank := by simp [write16]
@[simp] theorem write16_config (a : Word) (v : Half) : (write16 s a v).config = s.config := by simp [write16]

@[simp] theorem write32_regs (a v : Word) : (write32 s a v).regs = s.regs := by simp [write32]
@[simp] theorem write32_cpsr (a v : Word) : (write32 s a v).cpsr = s.cpsr := by simp [write32]
@[simp] theorem write32_status (a v : Word) : (write32 s a v).status = s.status := by simp [write32]
@[simp] theorem write32_biosLoaded (a v : Word) : (write32 s a v).biosLoaded = s.biosLoaded := by simp [write32]
@[simp] theorem write32_romSize (a v : Word) : (write32 s a v).romSize = s.romSize := by simp [write32]
@[simp] theorem write32_scanline (a v : Word) : (write32 s a v).scanline = s.scanline := by simp [write32]
@[simp] theorem write32_hblank (a v : Word) : (write32 s a v).hblank = s.hblank := by simp [write32]
@[simp] theorem write32_config (a v : Word) : (write32 s a v).config = s.config := by simp [write32]
@[simp] theorem readReg_write32 (a v : Word) (r : Reg) : readReg (write32 s a v) r = readReg s r := by
  simp [readReg]

/-! ### Reads do not see registers, flags, status or parameters -/

@[simp] theorem read8_writeReg (r : Reg) (v : Word) (a : Word) : read8 (writeReg s r v) a = read8 s a := rfl
@[simp] theorem read8_setNZ (r : Word) (a : Word) : read8 (setNZ s r) a = read8 s a := rfl
@[simp] theorem read8_setNZCV (r : AluResult) (a : Word) : read8 (setNZCV s r) a = read8 s a := rfl
@[simp] theorem read8_setThumb (b : Bool) (a : Word) : read8 (setThumb s b) a = read8 s a := rfl
@[simp] theorem read8_interworkBranch (t : Word) (a : Word) : read8 (interworkBranch s t) a = read8 s a := by
  unfold interworkBranch; split <;> rfl
@[simp] theorem read8_recordFault (f : Fault) (a : Word) : read8 (recordFault s f) a = read8 s a := rfl
@[simp] theorem read32_writeReg (r : Reg) (v : Word) (a : Word) : read32 (writeReg s r v) a = read32 s a := rfl
@[simp] theorem read16_writeReg (r : Reg) (v : Word) (a : Word) : read16 (writeReg s r v) a = read16 s a := rfl

/-! ### A read after a byte write -/

/-- Reading a plain byte through any address that names it gives the byte written (R54, R61 to R63). -/
theorem read8_write8_same {a b : Word} (v : Byte) (hp : (resolve b).isPlain = true) (h : resolve a = resolve b) :
    read8 (write8 s b v) a = v := by
  unfold read8 write8
  rw [h]
  rcases hq : resolve b with ⟨r, i⟩
  rw [hq] at hp
  cases r <;> simp [Place.isPlain, Region.isRam] at hp ⊢ <;> try simp [backing]
  have h4 : i ≠ 4 := fun e => by simp [e, isTypedIo] at hp
  have h5 : i ≠ 5 := fun e => by simp [e, isTypedIo] at hp
  have h6 : i ≠ 6 := fun e => by simp [e, isTypedIo] at hp
  have h7 : i ≠ 7 := fun e => by simp [e, isTypedIo] at hp
  simp [ioRead8, ioWrite8, backing]

/-- A read of a byte other than the one replaced. -/
theorem read8_setBacking_ne {a b : Word} (v : Byte) (hp : (resolve b).isPlain = true) (h : resolve a ≠ resolve b) :
    read8 (setBacking s (resolve b) v) a = read8 s a := by
  have hb : (resolve b).index < (resolve b).region.size s.romSize := by
    apply resolve_index_lt <;> (intro e; simp [Place.isPlain, Region.isRam, e] at hp)
  have hrom : (resolve b).region ≠ .rom := by intro e; simp [Place.isPlain, Region.isRam, e] at hp
  have key : ∀ p : Place, p ≠ resolve b → p.index < p.region.size s.romSize →
      backing (setBacking s (resolve b) v) p = backing s p := by
    intro p hne hlt
    refine Memory.read_write_ne _ v (fun e => hne ?_)
    obtain ⟨h1, h2⟩ := key_inj hlt hb e
    cases p; cases hq : resolve b; simp_all
  have hlt := resolve_index_lt a s.romSize
  unfold read8
  rcases hpa : resolve a with ⟨r, i⟩
  rw [hpa] at h hlt
  cases r <;> simp only at hlt ⊢
  case rom =>
    unfold romRead8
    by_cases hz : s.romSize = 0
    · simp [hz]
    · simp only [setBacking_romSize, hz, if_false]
      exact key ⟨.rom, i % s.romSize⟩ (fun e => hrom (by rw [← e])) (Nat.mod_lt _ (Nat.pos_of_ne_zero hz))
  case io =>
    unfold ioRead8
    split <;> (try rfl)
    exact key _ h (hlt (by simp) (by simp))
  case bios => rw [key _ h (hlt (by simp) (by simp))]; rfl
  all_goals exact key _ h (hlt (by simp) (by simp))

/-- A read at a place that does not depend on the place written gives what it gave (R54, R72). -/
theorem read8_write8_other {a b : Word} (v : Byte) (h : (resolve a).dependsOn (resolve b) = false) :
    read8 (write8 s b v) a = read8 s a := by
  rcases write8_cases s b v with e | ⟨hp, e⟩ | ⟨hq, e⟩ | ⟨hq, e⟩
  · rw [e]
  · rw [e]
    refine read8_setBacking_ne s v hp (fun hab => ?_)
    simp [Place.dependsOn, hab, hp] at h
  all_goals
    rw [e]
    unfold read8
    rcases hpa : resolve a with ⟨r, i⟩
    rw [hpa, hq] at h
    cases r <;> try rfl
    simp only [Place.dependsOn, dispstatLow, dispstatHigh] at h
  · have h4 : i ≠ 4 := fun e => by simp [e] at h
    by_cases h5 : i = 5
    · subst h5; simp only [ioRead8_five, lyc, BitVec.extractLsb'_append_eq_left]
    · exact ioRead8_congr_of_ne h4 h5 rfl rfl
  · have h4 : i ≠ 4 := fun e => by simp [e] at h
    have h5 : i ≠ 5 := fun e => by simp [e] at h
    exact ioRead8_congr_of_ne h4 h5 rfl rfl

end Sys2Proof.Machine
end

