-- ==== Sys2Proof/Laws/Decode.lean ====
section
/-! SUPPORT. The decoder said by the words' leading bits, and the opcode map's rows: no two overlap. -/

namespace Sys2Proof

/-- Two rows select no common word: their fixed bits differ somewhere both fix. -/
def OpcodeRow.disjoint (r q : OpcodeRow) : Bool := (r.mask &&& q.mask &&& (r.value ^^^ q.value)) != 0

/-- No word is selected by two rows, so the priority of R103 changes no result. -/
theorem opcodeRows_disjoint : opcodeRows.Pairwise (fun r q => r.disjoint q = true) := by decide

/-- A word selected by a row whose mask is the top bits from `lo` up has that row's top bits. -/
theorem and_top_eq_iff (w v : Half) (lo : Nat) (hv : v &&& (BitVec.allOnes 16 <<< lo) = v) :
    w &&& (BitVec.allOnes 16 <<< lo) = v ↔ w.toNat / 2 ^ lo = v.toNat / 2 ^ lo := by
  have hdiv : w.toNat / 2 ^ lo = v.toNat / 2 ^ lo ↔ w >>> lo = v >>> lo := by
    rw [← BitVec.toNat_inj]; simp [Nat.shiftRight_eq_div_pow]
  rw [hdiv]
  constructor
  · intro h
    rw [← h]
    ext i hi
    simp only [BitVec.getElem_ushiftRight, BitVec.getLsbD_and, BitVec.getLsbD_shiftLeft, BitVec.getLsbD_allOnes]
    by_cases hlt : lo + i < 16
    · simp [hlt, hi]
    · rw [BitVec.getLsbD_of_ge w (lo + i) (by omega), Bool.false_and]
  · intro h
    rw [← hv]
    ext i hi
    simp only [BitVec.getElem_and]
    by_cases hlo : i < lo
    · simp [hlo]
    · have := congrArg (fun x => x.getLsbD (i - lo)) h
      have e : lo + (i - lo) = i := by omega
      simp only [BitVec.getLsbD_ushiftRight, e] at this
      rw [BitVec.getLsbD_eq_getElem hi, BitVec.getLsbD_eq_getElem hi] at this
      rw [this]

theorem and_top8_eq_iff (w : Half) (v : Half) (hv : v &&& 0xFF00#16 = v) :
    w &&& 0xFF00#16 = v ↔ w.toNat / 256 = v.toNat / 256 := and_top_eq_iff w v 8 hv
theorem and_top7_eq_iff (w : Half) (v : Half) (hv : v &&& 0xFE00#16 = v) :
    w &&& 0xFE00#16 = v ↔ w.toNat / 512 = v.toNat / 512 := and_top_eq_iff w v 9 hv
theorem and_top5_eq_iff (w : Half) (v : Half) (hv : v &&& 0xF800#16 = v) :
    w &&& 0xF800#16 = v ↔ w.toNat / 2048 = v.toNat / 2048 := and_top_eq_iff w v 11 hv
theorem and_top4_eq_iff (w : Half) (v : Half) (hv : v &&& 0xF000#16 = v) :
    w &&& 0xF000#16 = v ↔ w.toNat / 4096 = v.toNat / 4096 := and_top_eq_iff w v 12 hv

/-- The priority chain of R104 on the words' leading bits. -/
theorem decode_eq (w : Half) : decode w =
    if w.toNat / 256 = 0x44 then .addHi (hiField w 7 0) (hiField w 6 3)
    else if w.toNat / 256 = 0x45 then .cmpHi (hiField w 7 0) (hiField w 6 3)
    else if w.toNat / 256 = 0x46 then .movHi (hiField w 7 0) (hiField w 6 3)
    else if w.toNat / 256 = 0x47 then .bx (hiField w 6 3)
    else if w.toNat / 512 = 0x0C then .addReg (lowField w 0) (lowField w 3) (lowField w 6)
    else if w.toNat / 512 = 0x0D then .subReg (lowField w 0) (lowField w 3) (lowField w 6)
    else if w.toNat / 512 = 0x0E then .addImm3 (lowField w 0) (lowField w 3) (w.extractLsb' 6 3)
    else if w.toNat / 512 = 0x0F then .subImm3 (lowField w 0) (lowField w 3) (w.extractLsb' 6 3)
    else if w.toNat / 512 = 0x5A then .push (w.getLsbD 8) (w.extractLsb' 0 8)
    else if w.toNat / 512 = 0x5E then .pop (w.getLsbD 8) (w.extractLsb' 0 8)
    else if w.toNat / 2048 = 0x04 then .movImm8 (lowField w 8) (w.extractLsb' 0 8)
    else if w.toNat / 2048 = 0x06 then .addImm8 (lowField w 8) (w.extractLsb' 0 8)
    else if w.toNat / 2048 = 0x07 then .subImm8 (lowField w 8) (w.extractLsb' 0 8)
    else if w.toNat / 2048 = 0x09 then .ldrPc (lowField w 8) (w.extractLsb' 0 8)
    else if w.toNat / 2048 = 0x0C then .strImm5 (lowField w 0) (lowField w 3) (w.extractLsb' 6 5)
    else if w.toNat / 2048 = 0x0D then .ldrImm5 (lowField w 0) (lowField w 3) (w.extractLsb' 6 5)
    else if w.toNat / 2048 = 0x0E then .strbImm5 (lowField w 0) (lowField w 3) (w.extractLsb' 6 5)
    else if w.toNat / 2048 = 0x0F then .ldrbImm5 (lowField w 0) (lowField w 3) (w.extractLsb' 6 5)
    else if w.toNat / 2048 = 0x1C then .b (w.extractLsb' 0 11)
    else if w.toNat / 4096 = 0x0D then .bcond (Cond.ofCode (w.extractLsb' 8 4)) (w.extractLsb' 0 8)
    else .fallback w := by
  have step : ∀ (r : OpcodeRow) (rest : List OpcodeRow) (n : Nat),
      (w &&& r.mask = r.value ↔ w.toNat / n = r.value.toNat / n) →
      decodeIn (r :: rest) w = if w.toNat / n = r.value.toNat / n then r.build w else decodeIn rest w := by
    intro r rest n h
    simp only [decodeIn, OpcodeRow.selects, beq_iff_eq, h]
  unfold decode opcodeRows opcodeRows8 opcodeRows7 opcodeRows5 opcodeRows4
  simp only [List.cons_append, List.nil_append]
  iterate 4 rw [step _ _ 256 (and_top8_eq_iff w _ (by decide))]
  iterate 6 rw [step _ _ 512 (and_top7_eq_iff w _ (by decide))]
  iterate 9 rw [step _ _ 2048 (and_top5_eq_iff w _ (by decide))]
  rw [step _ _ 4096 (and_top4_eq_iff w _ (by decide))]
  rfl

end Sys2Proof
end

