-- ==== Sys2Proof/Laws/PerInstr.lean ====
section
/-! SUPPORT. A law of every instruction as syntax, one lemma per constructor: the word the encoder writes has the fixed bits
of its own row of the opcode map, and a well-formed fallback's word lies in the fallback space. -/

namespace Sys2Proof

/-- The mask and value of an instruction's row in rule R108; the fallback has none. -/
def Instr.rowBits : Instr → Option (Half × Half)
  | .addHi _ _ => some (0xFF00, 0x4400)
  | .cmpHi _ _ => some (0xFF00, 0x4500)
  | .movHi _ _ => some (0xFF00, 0x4600)
  | .bx _ => some (0xFF00, 0x4700)
  | .addReg _ _ _ => some (0xFE00, 0x1800)
  | .subReg _ _ _ => some (0xFE00, 0x1A00)
  | .addImm3 _ _ _ => some (0xFE00, 0x1C00)
  | .subImm3 _ _ _ => some (0xFE00, 0x1E00)
  | .push _ _ => some (0xFE00, 0xB400)
  | .pop _ _ => some (0xFE00, 0xBC00)
  | .movImm8 _ _ => some (0xF800, 0x2000)
  | .addImm8 _ _ => some (0xF800, 0x3000)
  | .subImm8 _ _ => some (0xF800, 0x3800)
  | .ldrPc _ _ => some (0xF800, 0x4800)
  | .strImm5 _ _ _ => some (0xF800, 0x6000)
  | .ldrImm5 _ _ _ => some (0xF800, 0x6800)
  | .strbImm5 _ _ _ => some (0xF800, 0x7000)
  | .ldrbImm5 _ _ _ => some (0xF800, 0x7800)
  | .b _ => some (0xF800, 0xE000)
  | .bcond _ _ => some (0xF000, 0xD000)
  | .fallback _ => none

/-- Dropping the low part of a concatenation leaves the high part. -/
theorem toNat_append_div {m n : Nat} (a : BitVec m) (b : BitVec n) : (a ++ b).toNat / 2 ^ n = a.toNat := by
  have h := congrArg BitVec.toNat (BitVec.extractLsb'_append_eq_left (a := a) (b := b))
  have hlt : (a ++ b).toNat < 2 ^ m * 2 ^ n := by rw [← Nat.pow_add]; exact (a ++ b).isLt
  rw [BitVec.extractLsb'_toNat, Nat.shiftRight_eq_div_pow,
    Nat.mod_eq_of_lt (Nat.div_lt_of_lt_mul (by rwa [Nat.mul_comm] at hlt))] at h
  exact h

theorem toNat_append_div2 {m n k : Nat} (a : BitVec m) (b : BitVec n) (c : BitVec k) :
    (a ++ b ++ c).toNat / (2 ^ k * 2 ^ n) = a.toNat := by
  rw [← Nat.div_div_eq_div_mul, toNat_append_div, toNat_append_div]

theorem toNat_append_div3 {m n k l : Nat} (a : BitVec m) (b : BitVec n) (c : BitVec k) (d : BitVec l) :
    (a ++ b ++ c ++ d).toNat / (2 ^ l * (2 ^ k * 2 ^ n)) = a.toNat := by
  rw [← Nat.div_div_eq_div_mul, toNat_append_div, toNat_append_div2]

theorem toNat_append_div4 {m n k l j : Nat} (a : BitVec m) (b : BitVec n) (c : BitVec k) (d : BitVec l)
    (e : BitVec j) : (a ++ b ++ c ++ d ++ e).toNat / (2 ^ j * (2 ^ l * (2 ^ k * 2 ^ n))) = a.toNat := by
  rw [← Nat.div_div_eq_div_mul, toNat_append_div, toNat_append_div3]

end Sys2Proof

namespace Sys2Proof.Laws.EncodeMatchesRow

/-- The encoder writes the fixed bits of the instruction's row (R105, R108); a well-formed fallback keeps its word. -/
def Statement (i : Instr) : Prop :=
  i.wellFormed = true →
    match i.rowBits with
    | some (mask, value) => encode i &&& mask = value
    | none => inFallbackSpace (encode i) = true

theorem addHi (rd rs : Reg) : Statement (.addHi rd rs) := fun _ =>
  (and_top8_eq_iff _ _ (by decide)).mpr (toNat_append_div4 0b01000100#8 _ _ _ _)
theorem cmpHi (rd rs : Reg) : Statement (.cmpHi rd rs) := fun _ =>
  (and_top8_eq_iff _ _ (by decide)).mpr (toNat_append_div4 0b01000101#8 _ _ _ _)
theorem movHi (rd rs : Reg) : Statement (.movHi rd rs) := fun _ =>
  (and_top8_eq_iff _ _ (by decide)).mpr (toNat_append_div4 0b01000110#8 _ _ _ _)
theorem bx (rs : Reg) : Statement (.bx rs) := fun _ =>
  (and_top8_eq_iff _ _ (by decide)).mpr (toNat_append_div4 0b01000111#8 _ _ _ _)
theorem addReg (rd rs rn : LowReg) : Statement (.addReg rd rs rn) := fun _ =>
  (and_top7_eq_iff _ _ (by decide)).mpr (toNat_append_div3 0b0001100#7 _ _ _)
theorem subReg (rd rs rn : LowReg) : Statement (.subReg rd rs rn) := fun _ =>
  (and_top7_eq_iff _ _ (by decide)).mpr (toNat_append_div3 0b0001101#7 _ _ _)
theorem addImm3 (rd rs : LowReg) (imm : BitVec 3) : Statement (.addImm3 rd rs imm) := fun _ =>
  (and_top7_eq_iff _ _ (by decide)).mpr (toNat_append_div3 0b0001110#7 _ _ _)
theorem subImm3 (rd rs : LowReg) (imm : BitVec 3) : Statement (.subImm3 rd rs imm) := fun _ =>
  (and_top7_eq_iff _ _ (by decide)).mpr (toNat_append_div3 0b0001111#7 _ _ _)
theorem push (lr : Bool) (rlist : BitVec 8) : Statement (.push lr rlist) := fun _ =>
  (and_top7_eq_iff _ _ (by decide)).mpr (toNat_append_div2 0b1011010#7 _ _)
theorem pop (pc : Bool) (rlist : BitVec 8) : Statement (.pop pc rlist) := fun _ =>
  (and_top7_eq_iff _ _ (by decide)).mpr (toNat_append_div2 0b1011110#7 _ _)
theorem movImm8 (rd : LowReg) (imm : BitVec 8) : Statement (.movImm8 rd imm) := fun _ =>
  (and_top5_eq_iff _ _ (by decide)).mpr (toNat_append_div2 0b00100#5 _ _)
theorem addImm8 (rd : LowReg) (imm : BitVec 8) : Statement (.addImm8 rd imm) := fun _ =>
  (and_top5_eq_iff _ _ (by decide)).mpr (toNat_append_div2 0b00110#5 _ _)
theorem subImm8 (rd : LowReg) (imm : BitVec 8) : Statement (.subImm8 rd imm) := fun _ =>
  (and_top5_eq_iff _ _ (by decide)).mpr (toNat_append_div2 0b00111#5 _ _)
theorem ldrPc (rd : LowReg) (imm : BitVec 8) : Statement (.ldrPc rd imm) := fun _ =>
  (and_top5_eq_iff _ _ (by decide)).mpr (toNat_append_div2 0b01001#5 _ _)
theorem strImm5 (rd rb : LowReg) (imm : BitVec 5) : Statement (.strImm5 rd rb imm) := fun _ =>
  (and_top5_eq_iff _ _ (by decide)).mpr (toNat_append_div3 0b01100#5 _ _ _)
theorem ldrImm5 (rd rb : LowReg) (imm : BitVec 5) : Statement (.ldrImm5 rd rb imm) := fun _ =>
  (and_top5_eq_iff _ _ (by decide)).mpr (toNat_append_div3 0b01101#5 _ _ _)
theorem strbImm5 (rd rb : LowReg) (imm : BitVec 5) : Statement (.strbImm5 rd rb imm) := fun _ =>
  (and_top5_eq_iff _ _ (by decide)).mpr (toNat_append_div3 0b01110#5 _ _ _)
theorem ldrbImm5 (rd rb : LowReg) (imm : BitVec 5) : Statement (.ldrbImm5 rd rb imm) := fun _ =>
  (and_top5_eq_iff _ _ (by decide)).mpr (toNat_append_div3 0b01111#5 _ _ _)
theorem b (imm : BitVec 11) : Statement (.b imm) := fun _ =>
  (and_top5_eq_iff _ _ (by decide)).mpr (toNat_append_div 0b11100#5 _)
theorem bcond (cond : Cond) (imm : BitVec 8) : Statement (.bcond cond imm) := fun _ =>
  (and_top4_eq_iff _ _ (by decide)).mpr (toNat_append_div2 0b1101#4 _ _)
theorem fallback (word : Half) : Statement (.fallback word) := fun h => h

end Sys2Proof.Laws.EncodeMatchesRow
end

