-- ==== Sys2Proof/Laws/Map.lean ====
section
/-! SUPPORT. Facts about the address map: what an address in each region looks like, that nearby addresses name different
bytes, and that a plain byte's key is one the record backs. -/

namespace Sys2Proof.Machine

/-- What is known of an address from the region it falls in (R51). -/
theorem resolve_spec (a : Word) :
    match resolve a with
    | ⟨.bios, i⟩ => a.toNat = i ∧ i < 0x4000
    | ⟨.ewram, i⟩ => a.toNat = 0x02000000 + i ∧ i < 0x40000
    | ⟨.iwram, i⟩ => a.toNat = 0x03000000 + i ∧ i < 0x8000
    | ⟨.io, i⟩ => a.toNat = 0x04000000 + i ∧ i < 0x400
    | ⟨.palette, i⟩ => 0x05000000 ≤ a.toNat ∧ a.toNat < 0x06000000 ∧ i = (a.toNat - 0x05000000) % 0x400
    | ⟨.vram, i⟩ => i < 0x18000 ∧ (a.toNat = 0x06000000 + i ∨ (a.toNat = 0x06018000 + i ∧ i < 0x8000))
    | ⟨.oam, i⟩ => 0x07000000 ≤ a.toNat ∧ a.toNat < 0x08000000 ∧ i = (a.toNat - 0x07000000) % 0x400
    | ⟨.rom, i⟩ => 0x08000000 ≤ a.toNat ∧ a.toNat < 0x0E000000 ∧ i = (a.toNat - 0x08000000) % 0x02000000
    | ⟨.unmapped, i⟩ => i = 0 := by
  unfold resolve
  simp only
  by_cases h1 : a.toNat < 0x00004000
  · simp only [h1, if_true, and_self]
  by_cases h2 : 0x02000000 ≤ a.toNat ∧ a.toNat < 0x02040000
  · simp only [h1, h2, if_false, if_true, and_self]; omega
  by_cases h3 : 0x03000000 ≤ a.toNat ∧ a.toNat < 0x03008000
  · simp only [h1, h2, h3, if_false, if_true, and_self]; omega
  by_cases h4 : 0x04000000 ≤ a.toNat ∧ a.toNat < 0x04000400
  · simp only [h1, h2, h3, h4, if_false, if_true, and_self]; omega
  by_cases h5 : 0x05000000 ≤ a.toNat ∧ a.toNat < 0x06000000
  · simp only [h1, h2, h3, h4, h5, if_false, if_true, and_self]
  by_cases h6 : 0x06000000 ≤ a.toNat ∧ a.toNat < 0x06020000
  · simp only [h1, h2, h3, h4, h5, h6, if_false, if_true, and_self, vramIndex]
    split <;> omega
  by_cases h7 : 0x07000000 ≤ a.toNat ∧ a.toNat < 0x08000000
  · simp only [h1, h2, h3, h4, h5, h6, h7, if_false, if_true, and_self]
  by_cases h8 : 0x08000000 ≤ a.toNat ∧ a.toNat < 0x0E000000
  · simp only [h1, h2, h3, h4, h5, h6, h7, h8, if_false, if_true, and_self]
  simp only [h1, h2, h3, h4, h5, h6, h7, h8, if_false]

/-- Two addresses less than 1 KiB apart that name the same plain byte are one address: the shortest mirror period is
1 KiB (R61 to R63). -/
theorem resolve_near {a b : Word} (hp : (resolve a).isPlain = true) (h : resolve a = resolve b)
    (hab : a.toNat ≤ b.toNat) (hnear : b.toNat < a.toNat + 0x400) : a = b := by
  have ha := resolve_spec a
  have hb := resolve_spec b
  rw [← h] at hb
  apply BitVec.eq_of_toNat_eq
  rcases hr : resolve a with ⟨r, i⟩
  rw [hr] at ha hb hp
  cases r <;> simp [Place.isPlain, Region.isRam] at hp ha hb <;> omega

/-- A key inside a region's backing bytes, other than those of DISPSTAT and VCOUNT, is one the record backs. -/
theorem keyBacked_of_region {n k : Nat} (r : Region) (hr : r ∈ backedRegions) (hlo : r.base ≤ k)
    (hhi : k < r.base + r.size n) (hio : ¬(0x04000004 ≤ k ∧ k ≤ 0x04000007)) : keyBacked n k = true := by
  unfold keyBacked
  rw [Bool.and_eq_true, List.any_eq_true]
  refine ⟨⟨r, hr, by simp [hlo, hhi]⟩, ?_⟩
  simp only [Region.base, Bool.not_eq_true', Bool.and_eq_false_iff]
  rcases Nat.lt_or_ge k 0x04000004 with h | h
  · exact .inl (decide_eq_false (by omega))
  · exact .inr (decide_eq_false (by omega))

/-- A plain byte's key is one the record backs. -/
theorem keyBacked_of_plain {a : Word} (n : Nat) (hp : (resolve a).isPlain = true) :
    keyBacked n (resolve a).key = true := by
  have ha := resolve_spec a
  rcases hr : resolve a with ⟨r, i⟩
  rw [hr] at ha hp
  have hmem : r ∈ backedRegions := by
    cases r <;> first | decide | exact absurd hp (by simp [Place.isPlain, Region.isRam])
  refine keyBacked_of_region r hmem (Nat.le_add_right _ _) ?_ ?_ <;>
    (cases r <;> simp [Place.isPlain, Region.isRam, isTypedIo] at hp ha <;>
      simp only [Place.key, Region.base, Region.size] <;> omega)

/-! ### The invariant of the state record -/

/-- A byte write keeps the invariant. -/
theorem inv_write8 {s : State} (h : MachineInv s) (a : Word) (v : Byte) : MachineInv (write8 s a v) := by
  obtain ⟨hwf, hkeys, hlow⟩ := h
  rcases write8_cases s a v with e | ⟨hp, e⟩ | ⟨-, e⟩ | ⟨-, e⟩ <;> rw [e]
  · exact ⟨hwf, hkeys, hlow⟩
  · refine ⟨Memory.wf_write hwf _ _, ?_, hlow⟩
    intro c hc
    rcases Memory.mem_write hc with rfl | hc
    · exact keyBacked_of_plain _ hp
    · exact hkeys c hc
  · refine ⟨hwf, hkeys, ?_⟩
    rw [BitVec.extractLsb'_append_eq_of_add_le (by omega)]
    ext i hi
    have : i = 0 ∨ i = 1 ∨ i = 2 := by omega
    rcases this with rfl | rfl | rfl <;> simp
  · refine ⟨hwf, hkeys, ?_⟩
    rw [BitVec.extractLsb'_append_eq_of_add_le (by omega), ← hlow]
    ext i hi
    simp

/-- A word write keeps the invariant. -/
theorem inv_write32 {s : State} (h : MachineInv s) (a v : Word) : MachineInv (write32 s a v) :=
  inv_write8 (inv_write8 (inv_write8 (inv_write8 h _ _) _ _) _ _) _ _

/-- The invariant reads three fields only. -/
theorem inv_congr {s t : State} (h : MachineInv s) (hm : t.mem = s.mem) (hr : t.romSize = s.romSize)
    (hd : t.dispstatShadow = s.dispstatShadow) : MachineInv t := by
  unfold MachineInv at *
  rwa [hm, hr, hd]

end Sys2Proof.Machine
end

