-- ==== Sys2Proof/Laws/Words.lean ====
section
/-! SUPPORT. Word accesses: a read after a word write, and the runs of word accesses PUSH and POP make. -/

namespace Sys2Proof.Machine

variable (s : State)

/-- A byte that depends on none of the four stored addresses reads as before. -/
theorem read8_write32_other {x a : Word} (v : Word)
    (h : ∀ b ∈ wordBytes a, (resolve x).dependsOn (resolve b) = false) :
    read8 (write32 s a v) x = read8 s x := by
  simp only [wordBytes, List.mem_cons, List.not_mem_nil, or_false] at h
  unfold write32
  rw [read8_write8_other _ _ (h _ (by simp)), read8_write8_other _ _ (h _ (by simp)),
    read8_write8_other _ _ (h _ (by simp)), read8_write8_other _ _ (h _ (by simp))]

/-- A plain byte is changed only by a write of the same byte. -/
theorem dependsOn_plain {p q : Place} (hp : p.isPlain = true) (h : p ≠ q) : p.dependsOn q = false := by
  rcases p with ⟨r, i⟩
  have hlow : (⟨r, i⟩ : Place) ≠ dispstatLow := fun e => by rw [e] at hp; exact absurd hp (by decide)
  simp [Place.dependsOn, h, hlow]

/-- The distance from `a + j` to `a + k`, as addresses, when neither is far. -/
theorem add_near {a : Word} {j k : Nat} (hj : j < 0x400) (hk : k < 0x400) (hne : j ≠ k)
    (hp : (resolve (a + BitVec.ofNat 32 j)).isPlain = true) :
    resolve (a + BitVec.ofNat 32 j) ≠ resolve (a + BitVec.ofNat 32 k) := by
  intro h
  have hw : ∀ {x : Word}, (resolve x).isPlain = true → 0x02000000 ≤ x.toNat ∧ x.toNat < 0x08000000 := by
    intro x hx
    have hs := resolve_spec x
    rcases hr : resolve x with ⟨r, i⟩
    rw [hr] at hx hs
    cases r <;> simp [Place.isPlain, Region.isRam] at hx hs <;> omega
  have hpk := hp
  rw [h] at hpk
  have h1 := hw hp
  have h2 := hw hpk
  have key : a + BitVec.ofNat 32 j = a + BitVec.ofNat 32 k := by
    simp only [BitVec.toNat_add, BitVec.toNat_ofNat] at h1 h2
    rcases Nat.le_total j k with hle | hle
    · refine resolve_near hp h ?_ ?_ <;> simp only [BitVec.toNat_add, BitVec.toNat_ofNat] <;> omega
    · refine (resolve_near hpk h.symm ?_ ?_).symm <;> simp only [BitVec.toNat_add, BitVec.toNat_ofNat] <;> omega
  have := congrArg BitVec.toNat key
  simp only [BitVec.toNat_add, BitVec.toNat_ofNat] at this
  omega

/-- Byte `j` of a word just written, where the map has plain storage for it (R55). -/
theorem read8_write32_byte (a v : Word) {j : Nat} (hj : j < 4)
    (hp : (resolve (a + BitVec.ofNat 32 j)).isPlain = true) :
    read8 (write32 s a v) (a + BitVec.ofNat 32 j) = byteOf v j := by
  have other : ∀ k, k < 4 → j ≠ k → ∀ (t : State) (w : Byte),
      read8 (write8 t (a + BitVec.ofNat 32 k) w) (a + BitVec.ofNat 32 j) = read8 t (a + BitVec.ofNat 32 j) := by
    intro k hk hne t w
    exact read8_write8_other t w (dependsOn_plain hp (add_near (by omega) (by omega) hne hp))
  have e : write32 s a v = write8 (write8 (write8 (write8 s (a + BitVec.ofNat 32 0) (byteOf v 0))
      (a + BitVec.ofNat 32 1) (byteOf v 1)) (a + BitVec.ofNat 32 2) (byteOf v 2)) (a + BitVec.ofNat 32 3) (byteOf v 3) := by
    simp [write32]
  rw [e]
  have hj' : j = 0 ∨ j = 1 ∨ j = 2 ∨ j = 3 := by omega
  rcases hj' with rfl | rfl | rfl | rfl
  · rw [other 3 (by omega) (by omega), other 2 (by omega) (by omega), other 1 (by omega) (by omega),
      read8_write8_same _ _ hp rfl]
  · rw [other 3 (by omega) (by omega), other 2 (by omega) (by omega), read8_write8_same _ _ hp rfl]
  · rw [other 3 (by omega) (by omega), read8_write8_same _ _ hp rfl]
  · rw [read8_write8_same _ _ hp rfl]

/-- The four bytes of a word, put together again. -/
theorem bytes_join (v : Word) : byteOf v 3 ++ byteOf v 2 ++ byteOf v 1 ++ byteOf v 0 = v := by
  unfold byteOf
  rw [BitVec.extractLsb'_append_extractLsb'_eq_extractLsb' (by rfl),
    BitVec.extractLsb'_append_extractLsb'_eq_extractLsb' (by rfl),
    BitVec.extractLsb'_append_extractLsb'_eq_extractLsb' (by rfl)]
  exact BitVec.extractLsb'_eq_self

/-- The four bytes at and after an address are plain storage. -/
def PlainWord (a : Word) : Prop := ∀ j, j < 4 → (resolve (a + BitVec.ofNat 32 j)).isPlain = true

/-- A word just written reads back, where the map has plain storage for it (R53, R55). -/
theorem read32_write32 (a v : Word) (hp : PlainWord a) : read32 (write32 s a v) a = v := by
  have h : ∀ j, j < 4 → read8 (write32 s a v) (a + BitVec.ofNat 32 j) = byteOf v j :=
    fun j hj => read8_write32_byte s a v hj (hp j hj)
  have h0 := h 0 (by omega)
  have h1 := h 1 (by omega)
  have h2 := h 2 (by omega)
  have h3 := h 3 (by omega)
  rw [BitVec.add_zero] at h0
  unfold read32
  rw [h0, h1, h2, h3]
  exact bytes_join v

/-! ### Runs of word stores and loads -/

@[simp] theorem storeRegs_regs (rs : List Reg) (a : Word) : (storeRegs rs a s).regs = s.regs := by
  induction rs generalizing a s with
  | nil => rfl
  | cons r rest ih => simp [storeRegs, ih]
@[simp] theorem storeRegs_cpsr (rs : List Reg) (a : Word) : (storeRegs rs a s).cpsr = s.cpsr := by
  induction rs generalizing a s with
  | nil => rfl
  | cons r rest ih => simp [storeRegs, ih]
@[simp] theorem storeRegs_status (rs : List Reg) (a : Word) : (storeRegs rs a s).status = s.status := by
  induction rs generalizing a s with
  | nil => rfl
  | cons r rest ih => simp [storeRegs, ih]
@[simp] theorem storeRegs_biosLoaded (rs : List Reg) (a : Word) : (storeRegs rs a s).biosLoaded = s.biosLoaded := by
  induction rs generalizing a s with
  | nil => rfl
  | cons r rest ih => simp [storeRegs, ih]
@[simp] theorem storeRegs_romSize (rs : List Reg) (a : Word) : (storeRegs rs a s).romSize = s.romSize := by
  induction rs generalizing a s with
  | nil => rfl
  | cons r rest ih => simp [storeRegs, ih]
@[simp] theorem storeRegs_scanline (rs : List Reg) (a : Word) : (storeRegs rs a s).scanline = s.scanline := by
  induction rs generalizing a s with
  | nil => rfl
  | cons r rest ih => simp [storeRegs, ih]
@[simp] theorem storeRegs_hblank (rs : List Reg) (a : Word) : (storeRegs rs a s).hblank = s.hblank := by
  induction rs generalizing a s with
  | nil => rfl
  | cons r rest ih => simp [storeRegs, ih]
@[simp] theorem storeRegs_config (rs : List Reg) (a : Word) : (storeRegs rs a s).config = s.config := by
  induction rs generalizing a s with
  | nil => rfl
  | cons r rest ih => simp [storeRegs, ih]
@[simp] theorem readReg_storeRegs (rs : List Reg) (a : Word) (q : Reg) :
    readReg (storeRegs rs a s) q = readReg s q := by
  simp [readReg]

/-- The addresses of a run are `a` and the next ones. -/
theorem mem_runBytes {n : Nat} {a b : Word} (h : b ∈ runBytes n a) : ∃ m, m < 4 * n ∧ b = a + BitVec.ofNat 32 m := by
  induction n generalizing a with
  | zero => simp [runBytes] at h
  | succ n ih =>
    rcases List.mem_append.mp h with h | h
    · simp only [wordBytes, List.mem_cons, List.not_mem_nil, or_false] at h
      rcases h with rfl | rfl | rfl | rfl
      · exact ⟨0, by omega, by simp⟩
      · exact ⟨1, by omega, rfl⟩
      · exact ⟨2, by omega, rfl⟩
      · exact ⟨3, by omega, rfl⟩
    · obtain ⟨m, hm, rfl⟩ := ih h
      refine ⟨m + 4, by omega, ?_⟩
      apply BitVec.eq_of_toNat_eq
      simp only [BitVec.toNat_add, BitVec.toNat_ofNat]
      omega

/-- A byte that depends on no address of the run reads as before. -/
theorem read8_storeRegs_other (rs : List Reg) (a x : Word)
    (h : ∀ b ∈ runBytes rs.length a, (resolve x).dependsOn (resolve b) = false) :
    read8 (storeRegs rs a s) x = read8 s x := by
  induction rs generalizing a s with
  | nil => rfl
  | cons r rest ih =>
    simp only [List.length_cons, runBytes, List.mem_append] at h
    rw [storeRegs, ih _ _ (fun b hb => h b (.inr hb)), read8_write32_other _ _ (fun b hb => h b (.inl hb))]

/-- A run of stores keeps the invariant. -/
theorem inv_storeRegs {s : State} (h : MachineInv s) (rs : List Reg) (a : Word) : MachineInv (storeRegs rs a s) := by
  induction rs generalizing a s with
  | nil => exact h
  | cons r rest ih => exact ih (inv_write32 h _ _) _

/-- A run of loads changes registers only. -/
theorem loadRegs_eq (rs : List Reg) (a : Word) : ∃ regs, loadRegs rs a s = { s with regs := regs } := by
  induction rs generalizing a s with
  | nil => exact ⟨s.regs, rfl⟩
  | cons r rest ih =>
    obtain ⟨regs, h⟩ := ih (writeReg s r (read32 s a)) (a + 4#32)
    exact ⟨regs, h⟩

@[simp] theorem loadRegs_cpsr (rs : List Reg) (a : Word) : (loadRegs rs a s).cpsr = s.cpsr := by
  obtain ⟨regs, h⟩ := loadRegs_eq s rs a
  rw [h]
@[simp] theorem loadRegs_status (rs : List Reg) (a : Word) : (loadRegs rs a s).status = s.status := by
  obtain ⟨regs, h⟩ := loadRegs_eq s rs a
  rw [h]
@[simp] theorem loadRegs_mem (rs : List Reg) (a : Word) : (loadRegs rs a s).mem = s.mem := by
  obtain ⟨regs, h⟩ := loadRegs_eq s rs a
  rw [h]
@[simp] theorem loadRegs_biosLoaded (rs : List Reg) (a : Word) : (loadRegs rs a s).biosLoaded = s.biosLoaded := by
  obtain ⟨regs, h⟩ := loadRegs_eq s rs a
  rw [h]
@[simp] theorem loadRegs_romSize (rs : List Reg) (a : Word) : (loadRegs rs a s).romSize = s.romSize := by
  obtain ⟨regs, h⟩ := loadRegs_eq s rs a
  rw [h]
@[simp] theorem loadRegs_dispstatShadow (rs : List Reg) (a : Word) : (loadRegs rs a s).dispstatShadow = s.dispstatShadow := by
  obtain ⟨regs, h⟩ := loadRegs_eq s rs a
  rw [h]
@[simp] theorem loadRegs_scanline (rs : List Reg) (a : Word) : (loadRegs rs a s).scanline = s.scanline := by
  obtain ⟨regs, h⟩ := loadRegs_eq s rs a
  rw [h]
@[simp] theorem loadRegs_hblank (rs : List Reg) (a : Word) : (loadRegs rs a s).hblank = s.hblank := by
  obtain ⟨regs, h⟩ := loadRegs_eq s rs a
  rw [h]
@[simp] theorem loadRegs_config (rs : List Reg) (a : Word) : (loadRegs rs a s).config = s.config := by
  obtain ⟨regs, h⟩ := loadRegs_eq s rs a
  rw [h]
@[simp] theorem read8_loadRegs (rs : List Reg) (a x : Word) : read8 (loadRegs rs a s) x = read8 s x := by
  obtain ⟨regs, h⟩ := loadRegs_eq s rs a
  rw [h]; rfl

@[simp] theorem read32_loadRegs (rs : List Reg) (a x : Word) : read32 (loadRegs rs a s) x = read32 s x := by
  obtain ⟨regs, h⟩ := loadRegs_eq s rs a
  rw [h]; rfl

/-- A register outside the list is not loaded. -/
theorem readReg_loadRegs_ne {rs : List Reg} {q : Reg} (a : Word) (h : q ∉ rs) :
    readReg (loadRegs rs a s) q = readReg s q := by
  induction rs generalizing a s with
  | nil => rfl
  | cons r rest ih =>
    simp only [List.mem_cons, not_or] at h
    rw [loadRegs, ih _ _ h.2, readReg_writeReg_ne _ _ h.1]

/-- Register `k` of a run of loads has the word at `a + 4k`, when no register is listed twice. -/
theorem readReg_loadRegs_get {rs : List Reg} (hn : rs.Nodup) (a : Word) {k : Nat} (hk : k < rs.length) :
    readReg (loadRegs rs a s) rs[k] = read32 s (a + BitVec.ofNat 32 (4 * k)) := by
  induction rs generalizing a s k with
  | nil => simp at hk
  | cons r rest ih =>
    obtain ⟨hr, hrest⟩ := List.nodup_cons.mp hn
    cases k with
    | zero => simp [loadRegs, readReg_loadRegs_ne _ _ hr]
    | succ k =>
      simp only [List.getElem_cons_succ, loadRegs]
      rw [ih _ hrest _ (by simpa using hk), read32_writeReg, BitVec.add_assoc]
      congr 2
      apply BitVec.eq_of_toNat_eq
      simp only [BitVec.toNat_add, BitVec.toNat_ofNat]
      omega

/-- Byte `j` of word `k` of a run of stores is that byte of register `k`, where the map has plain storage for it. -/
theorem read8_storeRegs_byte {rs : List Reg} (a : Word) {k j : Nat} (hk : k < rs.length) (hj : j < 4)
    (hlen : 4 * rs.length ≤ 0x400) (hp : (resolve (a + BitVec.ofNat 32 (4 * k + j))).isPlain = true) :
    read8 (storeRegs rs a s) (a + BitVec.ofNat 32 (4 * k + j)) = byteOf (readReg s rs[k]) j := by
  induction rs generalizing a s k with
  | nil => simp at hk
  | cons r rest ih =>
    simp only [List.length_cons] at hlen hk
    have shift : ∀ m, a + 4#32 + BitVec.ofNat 32 m = a + BitVec.ofNat 32 (4 + m) := by
      intro m
      apply BitVec.eq_of_toNat_eq
      simp only [BitVec.toNat_add, BitVec.toNat_ofNat]
      omega
    cases k with
    | zero =>
      simp only [Nat.mul_zero, Nat.zero_add, List.getElem_cons_zero, storeRegs] at hp ⊢
      rw [read8_storeRegs_other, read8_write32_byte _ _ _ hj hp]
      intro b hb
      obtain ⟨m, hm, rfl⟩ := mem_runBytes hb
      rw [shift]
      exact dependsOn_plain hp (add_near (by omega) (by omega) (by omega) hp)
    | succ k =>
      have e : a + BitVec.ofNat 32 (4 * (k + 1) + j) = a + 4#32 + BitVec.ofNat 32 (4 * k + j) := by
        rw [shift]; congr 2; omega
      rw [e] at hp ⊢
      simp only [List.getElem_cons_succ, storeRegs]
      rw [ih _ _ (by omega) (by omega) hp]
      simp

/-- The registers of an rlist are distinct low registers. -/
theorem regList_nodup (rlist : BitVec 8) : (regList rlist).Nodup := by
  refine List.Nodup.map (fun x y h => Fin.ext (by simpa [lowReg] using congrArg Fin.val h)) ?_
  exact List.Nodup.filter _ (by decide)

theorem regList_lt {rlist : BitVec 8} {r : Reg} (h : r ∈ regList rlist) : r.val < 8 := by
  simp only [regList, List.mem_map] at h
  obtain ⟨x, -, rfl⟩ := h
  simp [lowReg]

end Sys2Proof.Machine
end

