-- ==== Sys2Proof/Laws/Step.lean ====
section
/-! SUPPORT. What a step and an instruction can do, said once. -/

namespace Sys2Proof.Machine

/-- No instruction is refused. -/
theorem exec_not_refused (i : Instr) (s : State) (r : Refusal) : exec i s ≠ .refused r := by
  cases i <;> simp only [exec, execAddHi, execCmpHi, execMovHi, execBx, execAddReg, execSubReg, execAddImm3, execSubImm3,
    execPush, execPop, execMovImm8, execAddImm8, execSubImm8, execLdrPc, execStrImm5, execLdrImm5, execStrbImm5,
    execLdrbImm5, execB, execBcond, execFallback, raise] <;> (try split) <;> simp

/-- What a step can do: stop at the guard, or run the decoded instruction on the state past the fetch. -/
theorem step_cases (s : State) :
    (∃ f, stepGuard s = some f ∧ step s = .fault f) ∨
    (Runnable s ∧ step s = exec (decode (fetch s)) (advancePc s)) := by
  unfold step
  cases h : stepGuard s with
  | some f => exact .inl ⟨f, rfl, rfl⟩
  | none =>
    refine .inr ⟨?_, rfl⟩
    unfold stepGuard at h
    split at h
    · cases h
    · rename_i hst
      split at h
      · rename_i ht; exact ⟨hst, ht⟩
      · cases h

/-- The guard lets a running state in Thumb state through. -/
theorem stepGuard_runnable {s : State} (h : Runnable s) : stepGuard s = none := by
  simp [stepGuard, h.1, h.2]

/-- What no instruction touches, whatever it is: the status, the parameters, bios_loaded, N_rom, scanline, hblank (R28,
R33). -/
theorem exec_systemKept {i : Instr} {s t : State} (h : exec i s = .next t) : SystemKept s t := by
  cases i <;> simp only [exec, execAddHi, execCmpHi, execMovHi, execBx, execAddReg, execSubReg, execAddImm3, execSubImm3,
    execPush, execPop, execMovImm8, execAddImm8, execSubImm8, execLdrPc, execStrImm5, execLdrImm5, execStrbImm5,
    execLdrbImm5, execB, execBcond, execFallback, raise] at h
  case pop =>
    split at h <;> cases h <;> simp [SystemKept]
  case bcond => split at h <;> cases h <;> simp [SystemKept, branchBy]
  case fallback => split at h <;> cases h; simp [SystemKept]
  all_goals
    cases h
    simp [SystemKept, hiWrite, writeAlu, writeNZ, storeWordRotated, branchBy]

end Sys2Proof.Machine
end

