-- ==== Sys2Proof/Laws/Effects.lean ====
section
/-! SUPPORT. What each shared operation of the meanings does, whole: its value, its flags and its frame. -/

namespace Sys2Proof.Machine

variable (s : State)

/-- The value, N and Z of a MOV or a load, and nothing else (R132, R134). -/
theorem writeNZ_effect (rd : LowReg) (v : Word) :
    OnlyRegister s (writeNZ s rd v) (lowReg rd) v ∧ NzAre s (writeNZ s rd v) v := by
  refine ⟨⟨by simp [writeNZ], ?_, ⟨fun a => rfl, rfl, rfl⟩, by simp [SystemKept, writeNZ]⟩,
    by simp [NzAre, writeNZ, BitVec.msb_eq_getLsbD_last]⟩
  intro r hr
  simp only [List.mem_singleton] at hr
  simp [writeNZ, readReg_writeReg, hr]

/-- The value and four flags of an arithmetic instruction, and nothing else (R130 to R132). -/
theorem writeAlu_effect (rd : LowReg) (a : AluResult) :
    OnlyRegister s (writeAlu s rd a) (lowReg rd) a.value ∧ FlagsAre s (writeAlu s rd a) a := by
  refine ⟨⟨by simp [writeAlu], ?_, ⟨fun a => rfl, rfl, rfl⟩, by simp [SystemKept, writeAlu]⟩,
    by simp [FlagsAre, writeAlu]⟩
  intro r hr
  simp only [List.mem_singleton] at hr
  simp [writeAlu, readReg_writeReg, hr]

/-- HiWrite: one register has the value of R141, and nothing else changes. -/
theorem hiWrite_effect (d : Reg) (v : Word) :
    OnlyRegister s (hiWrite s d v) d (hiValue s d v) ∧ (hiWrite s d v).cpsr = s.cpsr := by
  refine ⟨⟨by simp [hiWrite], ?_, ⟨fun a => rfl, rfl, rfl⟩, by simp [SystemKept, hiWrite]⟩, rfl⟩
  intro r hr
  simp only [List.mem_singleton] at hr
  simp [hiWrite, readReg_writeReg, hr]

/-- A PC-relative branch changes PC and nothing else (R180). -/
theorem branchBy_effect (offset : Word) :
    OnlyRegister s (branchBy s offset) pcReg (pc s + offset) ∧ (branchBy s offset).cpsr = s.cpsr := by
  refine ⟨⟨by simp [branchBy], ?_, ⟨fun a => rfl, rfl, rfl⟩, by simp [SystemKept, branchBy]⟩, rfl⟩
  intro r hr
  simp only [List.mem_singleton] at hr
  simp [branchBy, readReg_writeReg, hr]

/-- A state-switching branch changes PC and T and nothing else (R160). -/
theorem interworkBranch_frame (t : Word) :
    RegsKeptBut s (interworkBranch s t) [pcReg] ∧ NzcvKept s (interworkBranch s t) ∧
      MemoryKept s (interworkBranch s t) ∧ SystemKept s (interworkBranch s t) := by
  refine ⟨?_, by simp [NzcvKept], ⟨fun a => by simp, by simp, by simp⟩, by simp [SystemKept]⟩
  intro r hr
  simp only [List.mem_singleton] at hr
  simp [readReg_interworkBranch, hr]

/-- A byte write touches memory and DISPSTAT's stored bits only. -/
theorem write8_frame (a : Word) (v : Byte) :
    RegsKeptBut s (write8 s a v) [] ∧ (write8 s a v).cpsr = s.cpsr ∧ SystemKept s (write8 s a v) ∧
      MemoryKeptOutside s (write8 s a v) [a] :=
  ⟨fun r _ => by simp, by simp, by simp [SystemKept],
    fun x h => read8_write8_other s v (h a (List.mem_singleton.mpr rfl))⟩

/-- A word write touches memory and DISPSTAT's stored bits only. -/
theorem write32_frame (a v : Word) :
    RegsKeptBut s (write32 s a v) [] ∧ (write32 s a v).cpsr = s.cpsr ∧ SystemKept s (write32 s a v) ∧
      MemoryKeptOutside s (write32 s a v) (wordBytes a) :=
  ⟨fun r _ => by simp, by simp, by simp [SystemKept], fun _ h => read8_write32_other s v h⟩

/-! ### Halfwords -/

theorem half_join (v : Half) : v.extractLsb' 8 8 ++ v.extractLsb' 0 8 = v := by
  rw [BitVec.extractLsb'_append_extractLsb'_eq_extractLsb' (by rfl)]
  exact BitVec.extractLsb'_eq_self

/-- A byte that depends on neither of the two stored addresses reads as before. -/
theorem read8_write16_other {x a : Word} (v : Half) (h0 : (resolve x).dependsOn (resolve a) = false)
    (h1 : (resolve x).dependsOn (resolve (a + 1#32)) = false) : read8 (write16 s a v) x = read8 s x := by
  unfold write16
  rw [read8_write8_other _ _ h1, read8_write8_other _ _ h0]

/-- A halfword just written reads back, where the map has plain storage for it (R53, R55). -/
theorem read16_write16 (a : Word) (v : Half) (h0 : (resolve a).isPlain = true)
    (h1 : (resolve (a + 1#32)).isPlain = true) : read16 (write16 s a v) a = v := by
  have hne : resolve a ≠ resolve (a + 1#32) := by
    have := add_near (a := a) (j := 0) (k := 1) (by omega) (by omega) (by omega) (by simpa using h0)
    simpa using this
  unfold read16 write16
  rw [read8_write8_same _ _ h1 rfl, read8_write8_other _ _ (dependsOn_plain h0 hne), read8_write8_same _ _ h0 rfl]
  exact half_join v

/-- No write changes what a BIOS, cartridge or unmapped byte reads as (R54). -/
theorem dependsOn_readOnly {p q : Place} (h : p.region = .bios ∨ p.region = .rom ∨ p.region = .unmapped) :
    p.dependsOn q = false := by
  rcases p with ⟨r, i⟩
  have hlow : (⟨r, i⟩ : Place) ≠ dispstatLow := by
    rintro e
    cases e
    simp at h
  unfold Place.dependsOn
  by_cases hq : (⟨r, i⟩ : Place) = q
  · subst hq
    rcases h with h | h | h <;> simp only at h <;> subst h <;>
      simp [Place.isPlain, Region.isRam, dispstatLow, dispstatHigh]
  · simp [hq, hlow]

/-! ### Numbers behind bit fields -/

theorem toNat_append {m n : Nat} (a : BitVec m) (b : BitVec n) : (a ++ b).toNat = a.toNat * 2 ^ n + b.toNat := by
  have h1 := toNat_append_div a b
  have h2 : (a ++ b).toNat % 2 ^ n = b.toNat := by
    have := congrArg BitVec.toNat (BitVec.setWidth_append_eq_right (a := a) (b := b))
    simpa using this
  have := Nat.div_add_mod (a ++ b).toNat (2 ^ n)
  rw [h1, h2] at this
  rw [← this, Nat.mul_comm]

theorem toNat_extract {n : Nat} (w : BitVec n) (lo k : Nat) :
    (w.extractLsb' lo k).toNat = w.toNat / 2 ^ lo % 2 ^ k := by
  simp [BitVec.extractLsb'_toNat, Nat.shiftRight_eq_div_pow]

theorem misalignment_eq (a : Word) : misalignment a = a.toNat % 4 := by
  simp [misalignment, BitVec.extractLsb'_toNat]

/-- The one key set of the record's bytes does not depend on N_rom below the cartridge. -/
theorem keyBacked_below_rom {n m k : Nat} (h : keyBacked n k = true) (hk : k < Region.base .rom) :
    keyBacked m k = true := by
  unfold keyBacked at h
  rw [Bool.and_eq_true, List.any_eq_true] at h
  obtain ⟨⟨r, hr, h1⟩, h2⟩ := h
  have h1 := Bool.and_eq_true_iff.mp h1
  have hlo : r.base ≤ k := of_decide_eq_true h1.1
  have hhi : k < r.base + r.size n := of_decide_eq_true h1.2
  have hio : ¬(0x04000004 ≤ k ∧ k ≤ 0x04000007) := by
    intro ⟨ha, hb⟩
    have : (decide (Region.base .io + 4 ≤ k) && decide (k ≤ Region.base .io + 7)) = true := by
      rw [Bool.and_eq_true]
      exact ⟨decide_eq_true ha, decide_eq_true hb⟩
    rw [this] at h2
    exact absurd h2 (by decide)
  simp only [Region.base] at hk
  refine keyBacked_of_region r hr hlo ?_ hio
  cases r <;> simp only [Region.base, Region.size] at hlo hhi ⊢ <;> omega

end Sys2Proof.Machine
end

