-- ==== Sys2Proof/Machine/Assembly.lean ====
section
/-! DEFINITION. The assembly text of an instruction (30_encoding.md rule R111): one line in the spec's own syntax. No step uses
it. -/

namespace Sys2Proof.Machine

/-- A register's name; r13 to r15 by their roles. -/
def regText (r : Reg) : String :=
  if r = spReg then "sp" else if r = lrReg then "lr" else if r = pcReg then "pc" else "r" ++ toString r.val

/-- A condition's suffix; `nv` is the spec's name for the reserved code. -/
def condText : Cond → String
  | .eq => "eq" | .ne => "ne" | .cs => "cs" | .cc => "cc" | .mi => "mi" | .pl => "pl" | .vs => "vs" | .vc => "vc"
  | .hi => "hi" | .ls => "ls" | .ge => "ge" | .lt => "lt" | .gt => "gt" | .le => "le" | .al => "al" | .nv => "nv"

/-- The condition a suffix names, `hs` and `lo` as second names of `cs` and `cc`. -/
def condOfText (t : String) : Option Cond :=
  if t = "hs" then some .cs
  else if t = "lo" then some .cc
  else ([.eq, .ne, .cs, .cc, .mi, .pl, .vs, .vc, .hi, .ls, .ge, .lt, .gt, .le, .al, .nv] : List Cond).find?
    (fun c => condText c = t)

/-- An immediate in decimal. -/
def immText (n : Nat) : String := "#" ++ toString n

/-- A base and an offset between brackets. -/
def addressText (base : String) (offset : Nat) : String := "[" ++ base ++ ", " ++ immText offset ++ "]"

/-- A register list between braces. -/
def listText (rs : List Reg) : String :=
  String.singleton (Char.ofNat 0x7B) ++ String.intercalate ", " (rs.map regText) ++ String.singleton (Char.ofNat 0x7D)

/-- The text of an instruction at `a`, a branch with its target; none for a fallback word, which the syntax does not
name. -/
def assembly (a : Word) : Instr → Option String
  | .addHi rd rs => some ("add " ++ regText rd ++ ", " ++ regText rs)
  | .cmpHi rd rs => some ("cmp " ++ regText rd ++ ", " ++ regText rs)
  | .movHi rd rs => some ("mov " ++ regText rd ++ ", " ++ regText rs)
  | .bx rs => some ("bx " ++ regText rs)
  | .addReg rd rs rn => some ("add " ++ regText (lowReg rd) ++ ", " ++ regText (lowReg rs) ++ ", " ++ regText (lowReg rn))
  | .subReg rd rs rn => some ("sub " ++ regText (lowReg rd) ++ ", " ++ regText (lowReg rs) ++ ", " ++ regText (lowReg rn))
  | .addImm3 rd rs imm => some ("add " ++ regText (lowReg rd) ++ ", " ++ regText (lowReg rs) ++ ", " ++ immText imm.toNat)
  | .subImm3 rd rs imm => some ("sub " ++ regText (lowReg rd) ++ ", " ++ regText (lowReg rs) ++ ", " ++ immText imm.toNat)
  | .push lr rlist => some ("push " ++ listText (pushList lr rlist))
  | .pop pcBit rlist => some ("pop " ++ listText (regList rlist ++ (if pcBit then [pcReg] else [])))
  | .movImm8 rd imm => some ("mov " ++ regText (lowReg rd) ++ ", " ++ immText imm.toNat)
  | .addImm8 rd imm => some ("add " ++ regText (lowReg rd) ++ ", " ++ immText imm.toNat)
  | .subImm8 rd imm => some ("sub " ++ regText (lowReg rd) ++ ", " ++ immText imm.toNat)
  | .ldrPc rd imm => some ("ldr " ++ regText (lowReg rd) ++ ", " ++ addressText "pc" (4 * imm.toNat))
  | .strImm5 rd rb imm => some ("str " ++ regText (lowReg rd) ++ ", " ++ addressText (regText (lowReg rb)) (4 * imm.toNat))
  | .ldrImm5 rd rb imm => some ("ldr " ++ regText (lowReg rd) ++ ", " ++ addressText (regText (lowReg rb)) (4 * imm.toNat))
  | .strbImm5 rd rb imm => some ("strb " ++ regText (lowReg rd) ++ ", " ++ addressText (regText (lowReg rb)) imm.toNat)
  | .ldrbImm5 rd rb imm => some ("ldrb " ++ regText (lowReg rd) ++ ", " ++ addressText (regText (lowReg rb)) imm.toNat)
  | .b imm => some ("b " ++ toString (a + 2#32 + bOffset imm).toNat)
  | .bcond cond imm => some ("b" ++ condText cond ++ " " ++ toString (a + 2#32 + bcondOffset imm).toNat)
  | .fallback _ => none

end Sys2Proof.Machine
end

