-- ==== Sys2Proof/Tests/Slice0.lean ====
section
/-! SUPPORT. Tests: expected results are those of spec/95_test_vectors.md and of the examples in the family files, named by
their ids there; then, for every obligation with hypotheses, a state and operands that meet them. -/

namespace Sys2Proof.Tests

open Sys2Proof.Machine

/-! ### Well-formedness: the one check refuses a fallback whose word an implemented row selects -/

theorem test_wellFormed_fallback_refused :
    (Instr.fallback 0x1800).wellFormed = false ∧ (Instr.fallback 0x27FF).wellFormed = false ∧
    (Instr.fallback 0x4400).wellFormed = false ∧ (Instr.fallback 0xB5FF).wellFormed = false ∧
    (Instr.fallback 0xDF00).wellFormed = false := by decide

theorem test_wellFormed_accepts :
    (Instr.fallback 0x17FF).wellFormed = true ∧ (Instr.fallback 0x2800).wellFormed = true ∧
    (Instr.fallback 0xB3FF).wellFormed = true ∧ (Instr.fallback 0xFFFF).wellFormed = true ∧
    (Instr.bcond .nv 0).wellFormed = true := by decide

/-! ### Decoding: words written out from 30_encoding.md R105 and R108 -/

theorem test_decode_high :
    decode 0b0100010010001000 = .addHi 8 1 ∧ decode 0b0100010101001000 = .cmpHi 0 9 ∧
    decode 0b0100011010011100 = .movHi 12 3 ∧ decode 0b0100011011110111 = .movHi 15 14 ∧
    decode 0b0100011100001000 = .bx 1 ∧ decode 0b0100011101110000 = .bx 14 ∧
    decode 0b0100011111111111 = .bx 15 := by decide

theorem test_decode_addsub :
    decode 0b0001100010001000 = .addReg 0 1 2 ∧ decode 0b0001101010001000 = .subReg 0 1 2 ∧
    decode 0b0001110111011011 = .addImm3 3 3 7 ∧ decode 0b0001111001101010 = .subImm3 2 5 1 := by decide

theorem test_decode_stack :
    decode 0b1011010000000110 = .push false 6 ∧ decode 0b1011010100000000 = .push true 0 ∧
    decode 0b1011110000011000 = .pop false 0x18 ∧ decode 0b1011110100000001 = .pop true 1 := by decide

theorem test_decode_imm8 :
    decode 0b0010011111111111 = .movImm8 7 255 ∧ decode 0b0011000100000001 = .addImm8 1 1 ∧
    decode 0b0011101000000001 = .subImm8 2 1 ∧ decode 0b0100100000000011 = .ldrPc 0 3 := by decide

theorem test_decode_loadstore :
    decode 0b0110000001010001 = .strImm5 1 2 1 ∧ decode 0b0110100000010011 = .ldrImm5 3 2 0 ∧
    decode 0b0111000010000001 = .strbImm5 1 0 2 ∧ decode 0b0111111111001000 = .ldrbImm5 0 1 31 := by decide

theorem test_decode_branch :
    decode 0b1110010000000000 = .b 0x400 ∧ decode 0b1101000110111101 = .bcond .ne 0xBD ∧
    decode 0b1101111011111111 = .bcond .al 0xFF ∧ decode 0b1101111111111111 = .bcond .nv 0xFF := by decide

/-- The first and last word of every range of R221 (boundaries with the implemented rows). -/
theorem test_decode_fallback :
    fallbackRanges.all (fun r =>
      decode (BitVec.ofNat 16 r.1) == .fallback (BitVec.ofNat 16 r.1) &&
      decode (BitVec.ofNat 16 r.2) == .fallback (BitVec.ofNat 16 r.2)) = true := by decide

theorem test_decodeTableWord :
    decodeTableWord 16 0x4488 = some (.addHi 8 1) ∧ decodeTableWord 16 0xD1FD = some (.bcond .ne 0xFD) ∧
    decodeTableWord 16 0 = some (.fallback 0) := by decide

theorem test_decodeBytes_truncated : decodeBytes [0x88] = .error .truncated ∧ decodeBytes [] = .error .truncated := by
  exact ⟨rfl, rfl⟩

/-- R109: how many words the fallback takes. -/
theorem test_fallback_count : (fallbackRanges.map (fun r => r.2 - r.1 + 1)).sum = 38912 := by decide

/-- R112 and R113, from the examples of E001, E7FF, D1FD, D07F and of L-1 and L-2. -/
theorem test_address_operands :
    encode (.b (bField 0x0A 0x0E)) = 0xE001 ∧ encode (.b (bField 0x1000 0x1000)) = 0xE7FF ∧
    encode (.bcond .ne (bcondField 0x08 0x04)) = 0xD1FD ∧ encode (.bcond .eq (bcondField 0x1000 0x1100)) = 0xD07F ∧
    literalPlace 0 3 = 0x10 ∧ literalPlace 0x02000002 0 = 0x02000004 := by decide

/-- R111, on lines of the vectors. -/
theorem test_assembly :
    assembly 0 (.movImm8 7 255) = some "mov r7, #255" ∧ assembly 0 (.movHi 15 14) = some "mov pc, lr" ∧
    assembly 0 (.strImm5 1 2 1) = some "str r1, [r2, #4]" ∧ assembly 0 (.ldrPc 0 3) = some "ldr r0, [pc, #12]" ∧
    assembly 0 (.fallback 0) = none ∧ condOfText "hs" = some .cs ∧ condOfText "nv" = some .nv := by decide

/-! ### Steps -/

/-- NZCV in Thumb state. -/
def nzcv (n z c v : Bool) : Cpsr := { n := n, z := z, c := c, v := v, t := true }

/-- The fresh state with registers, flags and PC set. -/
def start (a : Word) (f : Cpsr) (rs : List (Reg × Word)) : State :=
  rs.foldl (fun s r => writeReg s r.1 r.2) (writeReg { State.reset with cpsr := f } pcReg a)

/-- A base address for code. -/
def code : Word := 0x02000000

/-- One step of the word at PC gives a next state with the property. -/
def steps (s : State) (w : Nat) (p : State → Bool) : Bool :=
  match step (s.withFetchWord 16 w) with
  | .next t => p t
  | .fault _ => false
  | .refused _ => false

/-- Register, flags and PC of a state. -/
def has (r : Reg) (v : Word) (f : Cpsr) (a : Word) (t : State) : Bool :=
  readReg t r == v && t.cpsr == f && pc t == a

/-- D-1 and D-2. -/
theorem test_movImm8 :
    steps (start code (nzcv false false true true) []) 0x27FF (has 7 255 (nzcv false false true true) 0x02000002) ∧
    steps (start code (nzcv true false false false) []) 0x2000 (has 0 0 (nzcv false true false false) 0x02000002) := by
  decide
/-- D-3 and D-4. -/
theorem test_addImm8 :
    steps (start code (nzcv false false false false) [(0, 0xFFFFFFFF)]) 0x3001
      (has 0 0 (nzcv false true true false) 0x02000002) ∧
    steps (start code (nzcv false false false false) [(1, 0x7FFFFFFF)]) 0x3101
      (has 1 0x80000000 (nzcv true false false true) 0x02000002) := by decide
/-- D-6 and E10. -/
theorem test_subImm8 :
    steps (start code (nzcv false false false false) [(2, 0x80000000)]) 0x3A01
      (has 2 0x7FFFFFFF (nzcv false false true true) 0x02000002) ∧
    steps (start code (nzcv false false false false) [(0, 5)]) 0x380A
      (has 0 0xFFFFFFFB (nzcv true false false false) 0x02000002) := by decide
/-- D-8 and D-9. -/
theorem test_addReg :
    steps (start code (nzcv false false false false) [(0, 0x80000000)]) 0x1800
      (has 0 0 (nzcv false true true true) 0x02000002) ∧
    steps (start code (nzcv false false false false) [(1, 0x7FFFFFFF), (2, 1)]) 0x1888
      (has 0 0x80000000 (nzcv true false false true) 0x02000002) := by decide
/-- D-11 and D-12: Rs is the minuend. -/
theorem test_subReg :
    steps (start code (nzcv false false false false) [(1, 0), (2, 1)]) 0x1A88
      (has 0 0xFFFFFFFF (nzcv true false false false) 0x02000002) ∧
    steps (start code (nzcv false false false false) [(1, 1), (2, 0x80000000)]) 0x1A88
      (has 0 0x80000001 (nzcv true false false true) 0x02000002) := by decide
/-- D-13 and D-14. -/
theorem test_addImm3 :
    steps (start code (nzcv false false false false) [(3, 0xFFFFFFF9)]) 0x1DDB
      (has 3 0 (nzcv false true true false) 0x02000002) ∧
    steps (start code (nzcv false true true true) [(2, 0x80000000)]) 0x1C11
      (has 1 0x80000000 (nzcv true false false false) 0x02000002) := by decide
/-- D-15 and D-16. -/
theorem test_subImm3 :
    steps (start code (nzcv false false false false) [(5, 0x80000000)]) 0x1E6A
      (has 2 0x7FFFFFFF (nzcv false false true true) 0x02000002) ∧
    steps (start code (nzcv false false false false) [(2, 0)]) 0x1E11
      (has 1 0 (nzcv false true true false) 0x02000002) := by decide
/-- H-1 and H-2. -/
theorem test_addHi :
    steps (start code (nzcv true true true true) [(8, 0x10), (1, 0x20)]) 0x4488
      (has 8 0x30 (nzcv true true true true) 0x02000002) ∧
    steps (start 0x100 (nzcv false false false false) []) 0x4478
      (has 0 0x102 (nzcv false false false false) 0x102) := by decide
/-- H-4 and H-5: r15 as the destination under both values of HI_PC_WRITE. -/
theorem test_addHi_pc :
    steps (start 0x100 (nzcv false false false false) [(1, 5)]) 0x448F (fun t => pc t == 0x107) ∧
    steps { start 0x100 (nzcv false false false false) [(1, 5)] with
      config := { Config.standard with hiPcWrite := .clearBit0 } } 0x448F (fun t => pc t == 0x106) := by decide
/-- H-7 and H-8. -/
theorem test_cmpHi :
    steps (start code (nzcv false false false false) [(8, 0x12345678)]) 0x45C0
      (has 8 0x12345678 (nzcv false true true false) 0x02000002) ∧
    steps (start code (nzcv false false false false) [(0, 1), (1, 2)]) 0x4508
      (has 0 1 (nzcv true false false false) 0x02000002) := by decide
/-- H-10 and H-11. -/
theorem test_movHi :
    steps (start 0x0E (nzcv false false false false) []) 0x4678 (has 0 0x10 (nzcv false false false false) 0x10) ∧
    steps (start code (nzcv false false false false) [(14, 0x02000041)]) 0x46F7
      (has 14 0x02000041 (nzcv false false false false) 0x02000041) := by decide
/-- X-3 and X-6: bits 7 and 2 to 0 are ignored; an even target leaves Thumb state. -/
theorem test_bx :
    steps (start code (nzcv false false false false) [(1, 0x08000103)]) 0x4709
      (fun t => t.cpsr.t && pc t == 0x08000102) ∧
    steps (start 0x100 (nzcv false false false false) []) 0x47FF (fun t => !t.cpsr.t && pc t == 0x100) := by decide
/-- S-1 and S-5. -/
theorem test_push :
    steps (start code (nzcv false false false false) [(13, 0x03007F00), (1, 7), (2, 42)]) 0xB406
      (fun t => sp t == 0x03007EF8 && read32 t 0x03007EF8 == 7 && read32 t 0x03007EFC == 42) ∧
    steps (start code (nzcv false false false false) [(13, 0x03000011), (0, 0xAABBCCDD)]) 0xB401
      (fun t => sp t == 0x0300000D && read8 t 0x0300000D == 0xDD && read8 t 0x03000010 == 0xAA) := by decide
/-- S-4: a push from the fresh state stores nowhere. -/
theorem test_push_unmapped :
    steps (start code (nzcv false false false false) [(0, 1)]) 0xB401
      (fun t => sp t == 0xFFFFFFFC && read32 t 0xFFFFFFFC == 0xFFFFFFFF) := by decide
/-- S-6. -/
theorem test_pop_pc :
    steps (write32 (write32 (start code (nzcv false false false false) [(13, 0x03007EF8)]) 0x03007EF8 1) 0x03007EFC
      0x08000123) 0xBD01
      (fun t => readReg t 0 == 1 && t.cpsr.t && pc t == 0x08000122 && sp t == 0x03007F00) := by decide
/-- S-8: no flag, open bus. -/
theorem test_pop_unmapped :
    steps (start code (nzcv false false false false) [(13, 0x01000000)]) 0xBC01
      (fun t => readReg t 0 == 0xFFFFFFFF && sp t == 0x01000004 && t.cpsr == nzcv false false false false) := by decide
/-- L-3 and L-4. -/
theorem test_ldrPc :
    steps (write32 (start code (nzcv true false false false) []) 0x02000004 0) 0x4800
      (has 0 0 (nzcv false true false false) 0x02000002) ∧
    steps (start 0x0203FFFC (nzcv false false false false) []) 0x4800
      (has 0 0xFFFFFFFF (nzcv true false false false) 0x0203FFFE) := by decide
/-- L-5 and L-17. -/
theorem test_strImm5 :
    steps (start code (nzcv false false false false) [(2, 0x03000001), (1, 0x44332211)]) 0x6051
      (fun t => read8 t 0x03000004 == 0x44 && read8 t 0x03000005 == 0x11 && read8 t 0x03000007 == 0x33) ∧
    steps (loadGamepakBytes [0xDE, 0xAD, 0xBE, 0xEF] (start code (nzcv false false false false) [(0, 0x08000000)])).2
      0x6001 (fun t => read32 t 0x08000000 == 0xEFBEADDE) := by decide
/-- L-7 and L-10. -/
theorem test_ldrImm5 :
    steps (write32 (start code (nzcv false false false false) [(2, 0x03000002)]) 0x03000000 0x44332211) 0x6813
      (fun t => readReg t 3 == 0x22114433) ∧
    steps (write32 (start code (nzcv false false true true) [(0, 0x03000000)]) 0x03000000 0x80000000) 0x6800
      (has 0 0x80000000 (nzcv true false true true) 0x02000002) := by decide
/-- L-12 and L-16. -/
theorem test_strbImm5 :
    steps (start code (nzcv false false false false) [(0, 0x03000000), (1, 0x12345678)]) 0x7081
      (fun t => read32 t 0x03000000 == 0x00780000) ∧
    steps (start code (nzcv false false false false) [(0, 0x04000000), (1, 0xFF)]) 0x7101
      (fun t => t.dispstatShadow == 0x00F8 && read16 t 0x04000004 == 0x00FC) := by decide
/-- L-14 and L-15. -/
theorem test_ldrbImm5 :
    steps (write8 (start code (nzcv true false false false) [(1, 0x03000000)]) 0x0300001F 0x80) 0x7FC8
      (has 0 0x80 (nzcv false false false false) 0x02000002) ∧
    steps (start code (nzcv false false false false) [(1, 0x01000000)]) 0x7808
      (has 0 0xFF (nzcv false false false false) 0x02000002) := by decide
/-- B-5 and B-6. -/
theorem test_b :
    steps (start 0x1000 (nzcv false false false false) []) 0xE400 (fun t => pc t == 0x0802) ∧
    steps (start 0 (nzcv false false false false) []) 0xE7FE (fun t => pc t == 0xFFFFFFFE) := by decide
/-- B-9 and B-10. -/
theorem test_bcond :
    steps (start 0x1000 (nzcv false true false false) []) 0xD080 (fun t => pc t == 0x0F02) ∧
    steps (start 0x1000 (nzcv false false false false) []) 0xD07F (fun t => pc t == 0x1002) := by decide
/-- U-2 and U-5: CMP Rd,#imm8 compares nothing; the fault policy stops. -/
theorem test_fallback :
    steps (start code (nzcv false false false false) []) 0x2800 (has 0 0 (nzcv false false false false) 0x02000002) ∧
    (let s := { start code (nzcv false false false false) [] with
        config := { Config.standard with unimplPolicy := .fault } }
     advance s = { s with status := .faulted (.unimplemented 0) }) := by decide

/-- U-6 and U-7: open bus is fetched as a fallback word, and PC wraps. -/
theorem test_step_openBus :
    pc (advance State.reset) = 2 ∧ pc (advance (writeReg State.reset pcReg 0xFFFFFFFE)) = 0 := by decide
/-- U-8. -/
theorem test_step_armState :
    let s := { State.reset with cpsr := { nzcv false false false false with t := false } }
    advance s = { s with status := .faulted .armStateUnimplemented } ∧ advance (advance s) = advance s ∧
      (cpuReset (advance s)).status = .running := by decide
/-- U-9: an odd PC fetches odd. -/
theorem test_step_odd :
    let s := write8 (write8 (start 0x02000001 (nzcv false false false false) []) 0x02000001 0x07) 0x02000002 0x21
    readReg (advance s) 1 = 7 ∧ pc (advance s) = 0x02000003 := by decide

/-! ### Flags -/

/-- Result and NZCV of an operation. -/
def aluIs (a : AluResult) (v : Word) (n z c o : Bool) : Bool := a == ⟨v, n, z, c, o⟩

/-- F-1 to F-7. -/
theorem test_addFlags :
    aluIs (addWithFlags 0xFFFFFFFF 1) 0 false true true false ∧
    aluIs (addWithFlags 0x7FFFFFFF 1) 0x80000000 true false false true ∧
    aluIs (addWithFlags 0x80000000 0x80000000) 0 false true true true ∧
    aluIs (addWithFlags 0 0) 0 false true false false ∧
    aluIs (addWithFlags 0xFFFFFFFF 0xFFFFFFFF) 0xFFFFFFFE true false true false ∧
    aluIs (addWithFlags 0x80000000 0xFFFFFFFF) 0x7FFFFFFF false false true true ∧
    aluIs (addWithFlags 5 3) 8 false false false false := by decide

/-- F-8 to F-16. -/
theorem test_subFlags :
    aluIs (subWithFlags 0 1) 0xFFFFFFFF true false false false ∧
    aluIs (subWithFlags 0x80000000 1) 0x7FFFFFFF false false true true ∧
    aluIs (subWithFlags 0x7FFFFFFF 0xFFFFFFFF) 0x80000000 true false false true ∧
    aluIs (subWithFlags 5 5) 0 false true true false ∧ aluIs (subWithFlags 0 0) 0 false true true false ∧
    aluIs (subWithFlags 5 10) 0xFFFFFFFB true false false false ∧
    aluIs (subWithFlags 0xFFFFFFFF 0x7FFFFFFF) 0x80000000 true false true false ∧
    aluIs (subWithFlags 0x80000000 0x80000000) 0 false true true false ∧
    aluIs (subWithFlags 1 0x80000000) 0x80000001 true false false true := by decide

/-- The six columns of the condition table of section 2.7, EQ to NV down each. -/
theorem test_conditions :
    let column (f : Cpsr) : List Bool :=
      ([.eq, .ne, .cs, .cc, .mi, .pl, .vs, .vc, .hi, .ls, .ge, .lt, .gt, .le, .al, .nv] : List Cond).map
        (conditionPassed f)
    column (nzcv false false false false) = [false, true, false, true, false, true, false, true, false, true, true,
      false, true, false, true, false] ∧
    column (nzcv false false true false) = [false, true, true, false, false, true, false, true, true, false, true,
      false, true, false, true, false] ∧
    column (nzcv false true true false) = [true, false, true, false, false, true, false, true, false, true, true,
      false, false, true, true, false] ∧
    column (nzcv true false false true) = [false, true, false, true, true, false, true, false, false, true, true,
      false, true, false, true, false] ∧
    column (nzcv true false false false) = [false, true, false, true, true, false, false, true, false, true, false,
      true, false, true, true, false] ∧
    column (nzcv false false false true) = [false, true, false, true, false, true, true, false, false, true, false,
      true, false, true, true, false] := by decide

/-! ### Memory, I/O, resets and loads (section 2.9 and E1 to E5, E11) -/

/-- M-1 to M-4. -/
theorem test_dispstat :
    let s := State.reset
    let t := write16 s 0x04000004 0xFFFF
    read16 s 0x04000004 = 0x0004 ∧ read16 s 0x04000006 = 0 ∧ read32 s 0x04000004 = 4 ∧
    t.dispstatShadow = 0xFFF8 ∧ read16 t 0x04000004 = 0xFFF8 ∧ read16 (setScanline 255 t) 0x04000004 = 0xFFFD ∧
    read16 (setHblank true (setScanline 160 t)) 0x04000004 = 0xFFFB ∧
    read16 (setScanline 160 t) 0x04000006 = 0x00A0 := by decide
/-- M-5 to M-9. -/
theorem test_dispstat_widths :
    let s := State.reset
    let t := write32 s 0x04000004 0x1234A5FF
    let u := write8 (write8 s 0x04000004 0x07) 0x04000005 0x10
    t.dispstatShadow = 0xA5F8 ∧ read32 t 0x04000004 = 0x0000A5F8 ∧ (write8 s 0x04000004 0x07).dispstatShadow = 0 ∧
    read16 (setScanline 0x10 u) 0x04000004 = 0x1004 ∧ read16 (setScanline 0x110 u) 0x04000004 = 0x1001 ∧
    read16 (setScanline 0x110 u) 0x04000006 = 0x0110 ∧ write16 s 0x04000006 0x1234 = s := by decide
/-- M-10 to M-14. -/
theorem test_memory :
    let s := State.reset
    read16 (write16 s 0x04000000 0xBEEF) 0x04000000 = 0xBEEF ∧
    read8 (write16 s 0x04000000 0xBEEF) 0x04000001 = 0xBE ∧
    read32 (write8 s 0x0203FFFF 0x77) 0x0203FFFE = 0xFFFF7700 ∧
    read32 (write32 s 0x02040000 5) 0x02040000 = 0xFFFFFFFF ∧ read32 s 0xFFFFFFFE = 0xFFFFFFFF ∧
    read8 (write8 s 0x06018010 0xCD) 0x06000010 = 0xCD ∧ read8 (write8 s 0x06018010 0xCD) 0x06020010 = 0xFF := by decide
/-- E3: mirrors. -/
theorem test_mirrors :
    let s := State.reset
    read8 (write8 s 0x05000C05 0xAB) 0x05000005 = 0xAB ∧ read8 (write8 s 0x05000C05 0xAB) 0x05FFFC05 = 0xAB ∧
    read8 (write8 s 0x07FFFFFF 0x12) 0x070003FF = 0x12 := by decide
/-- E4 and E11. -/
theorem test_cartridge :
    let s := (loadGamepakBytes [0xDE, 0xAD, 0xBE, 0xEF] State.reset).2
    read8 s 0x09FFFFFF = 0xEF ∧ read8 s 0x0A000000 = 0xDE ∧ read8 s 0x0C000000 = 0xDE ∧ read8 s 0x08000004 = 0xDE ∧
    read32 s 0x08000002 = 0xADDEEFBE ∧ read8 s 0x0E000000 = 0xFF ∧ write8 s 0x08000001 7 = s := by decide
/-- M-15 to M-18. -/
theorem test_loads :
    let s := State.reset
    let t := (loadBios (some [1, 2, 3]) s).2
    (loadBios (some [1, 2, 3]) s).1 = true ∧ read32 t 0 = 0x00030201 ∧ read8 t 0x3FFF = 0 ∧
    loadBios none s = (false, s) ∧ read8 s 0 = 0xFF ∧
    loadGamepakBytes [] s = (true, s) ∧ read8 (loadGamepakBytes [] s).2 0x08000000 = 0xFF ∧
    (let r := (loadGamepakFile (some [0xDE]) s).2
     loadGamepakFile (some []) r = (false, r) ∧ read8 r 0x08000000 = 0xDE) := by decide
/-- M-19 and M-20. -/
theorem test_resets :
    let s := setScanline 7 (write8 (start 0x1234 (nzcv true false true false) [(3, 9)]) 0x02000000 0x55)
    read8 (cpuReset s) 0x02000000 = 0x55 ∧ readReg (cpuReset s) 3 = 0 ∧ readCpsr (cpuReset s) = 0x00000020 ∧
    read8 (busReset s) 0x02000000 = 0 ∧ readReg (busReset s) 3 = 9 ∧ read16 (busReset s) 0x04000004 = 0x0004 ∧
    (busReset s).cpsr = nzcv true false true false := by decide
/-- R76: a word write over DISPSTAT and VCOUNT, and over VCOUNT and the bytes after it. -/
theorem test_vcount_word :
    let s := setScanline 0x0110 State.reset
    read16 (write32 s 0x04000004 0x1234A5FF) 0x04000006 = 0x0110 ∧
    read16 (write32 s 0x04000006 0xBEEF1234) 0x04000006 = 0x0110 ∧
    read16 (write32 s 0x04000006 0xBEEF1234) 0x04000008 = 0xBEEF := by decide
/-- R273: a BIOS load leaves RAM, the cartridge and the CPU. -/
theorem test_loadBios_frame :
    let s := (loadGamepakBytes [0xDE, 0xAD] (write8 (start 0x1234 (nzcv true false true false) [(3, 9)]) 0x02000000 0x55)).2
    let t := (loadBios (some [1, 2, 3]) s).2
    read8 t 0x02000000 = 0x55 ∧ read8 t 0x08000001 = 0xAD ∧ readReg t 3 = 9 ∧ t.cpsr = nzcv true false true false := by
  decide
/-- R275. -/
theorem test_debug :
    getReg 18 (setReg 2 5 State.reset) = 5 ∧ getPc (setPc 0x02000041 State.reset) = 0x02000040 ∧
    getPc (setReg 31 0x02000041 State.reset) = 0x02000041 ∧
    readCpsr { State.reset with cpsr := nzcv false true true false } = 0x60000020 := by decide
/-- The memory stays canonical: writing 0 back removes the entry. -/
theorem test_memory_canonical :
    (write8 (write8 State.reset 0x02000000 5) 0x02000000 0).mem = [] ∧
    (write8 (write8 State.reset 0x02000001 5) 0x02000000 6).mem = [(0x02000000, 6), (0x02000001, 5)] := by decide
/-- Placing an instruction at PC 0 after reset, and where the map has no storage. -/
theorem test_withFetchWord :
    steps State.reset 0x2105 (has 1 5 (nzcv false false false false) 2) ∧
    steps (writeReg State.reset pcReg 0x0E000000) 0x2105 (has 1 5 (nzcv false false false false) 0x02000002) ∧
    steps (writeReg State.reset pcReg 0x08000010) 0x2105 (has 1 5 (nzcv false false false false) 0x08000012) := by decide

/-- No byte of the list decides what the place reads as. -/
def outside (a : Word) (stored : List Word) : Bool := stored.all (fun b => !(resolve a).dependsOn (resolve b))

theorem outside_spec {a : Word} {stored : List Word} (h : outside a stored = true) :
    ∀ b ∈ stored, (resolve a).dependsOn (resolve b) = false := by
  intro b hb
  simpa using List.all_eq_true.mp h b hb

/-! ### Witnesses: states and operands that meet the hypotheses of each obligation, clause by clause -/

/-- A stack that ends at the last word of IWRAM. -/
def stacked : State := start code (nzcv true true true true) [(0, 3), (7, 9), (13, 0x03008000), (14, 0x55)]

/-- DecodeOfEncodeIsIdentity. -/
theorem witness_wellFormed : (Instr.fallback 0x17FF).wellFormed = true ∧ (Instr.addHi 15 15).wellFormed = true := by decide
/-- FlagSettersWriteOnlyTheirFlags, third clause. -/
theorem witness_flagless : (Instr.movHi 1 2).flagWrites = ⟨false, false, false⟩ ∧
    ∃ t, exec (.movHi 1 2) State.reset = .next t := ⟨rfl, _, rfl⟩
/-- OverflowFlagIsSignedOverflow, last clause: the smallest borrow at the top of the range. -/
theorem witness_borrow : (0xFFFFFFFE#32).toNat < (0xFFFFFFFF#32).toNat := by decide
/-- HighRegisterAddMovResult: the three clauses of the destination. -/
theorem witness_highRegister : (14 : Reg) ≠ pcReg ∧ State.reset.config.hiPcWrite = .raw ∧
    { State.reset with config := { Config.standard with hiPcWrite := .clearBit0 } }.config.hiPcWrite = .clearBit0 := by
  decide
/-- BranchExchangeResult: an odd and an even target. -/
theorem witness_bx : (readReg (start code (nzcv false false false false) [(1, 0xFFFFFFFF)]) 1).toNat % 2 = 1 ∧
    (readReg (start code (nzcv false false false false) [(1, 2)]) 1).toNat % 2 = 0 := by decide
/-- PushResult: the last byte of the last register, in plain storage, and an address outside the stored bytes. -/
theorem witness_push : 8 < (pushList true 0xFF).length ∧
    (resolve (pushBase stacked true 0xFF + BitVec.ofNat 32 (4 * 8 + 3))).isPlain = true ∧
    ∀ b ∈ runBytes (pushList true 0xFF).length (pushBase stacked true 0xFF),
      (resolve 0x03007FDB).dependsOn (resolve b) = false :=
  ⟨by decide, by decide, outside_spec rfl⟩
/-- PopRegistersResult and PopProgramCounterResult: the last listed register. -/
theorem witness_pop : 7 < (regList 0xFF).length ∧ 0 < (regList 0x80).length := by decide
/-- PopUndoesPush: a whole stack in plain storage. -/
theorem witness_popUndoesPush : ∀ m < 4 * (regList 0x81).length,
    (resolve (pushBase stacked false 0x81 + BitVec.ofNat 32 m)).isPlain = true := by decide
/-- StackPointerDiscipline: an instruction that writes SP and one that does not. -/
theorem witness_stackPointer : (Instr.addHi 13 0).writesSp = true ∧ (Instr.pop true 0).writesSp = true ∧
    (Instr.addHi 12 0).writesSp = false ∧ ∃ t, exec (.addHi 12 0) stacked = .next t :=
  ⟨by decide, by decide, by decide, _, rfl⟩
/-- StoreWordResult and RotatedStoreThenLoadIsIdentity: a misaligned address at the end of EWRAM. -/
theorem witness_storeWord :
    (∀ j < 4, (resolve (alignWord 0x0203FFFF + BitVec.ofNat 32 j)).isPlain = true) ∧
    ∀ b ∈ wordBytes (alignWord 0x0203FFFF), (resolve 0x0203FFFB).dependsOn (resolve b) = false :=
  ⟨by decide, outside_spec rfl⟩
/-- StoreByteResult: the last byte of OAM through its last mirror, and its neighbour. -/
theorem witness_storeByte : (resolve 0x07FFFFFF).isPlain = true ∧
    (resolve 0x07FFFFFE).dependsOn (resolve 0x07FFFFFF) = false := ⟨by decide, rfl⟩
/-- FallbackFollowsThePolicy and NoStepStopsUnderNop: both policies, in a state whose step fetches. -/
theorem witness_policy : State.reset.config.unimplPolicy = .nop ∧ Runnable State.reset ∧
    { State.reset with config := { Config.standard with unimplPolicy := .fault } }.config.unimplPolicy = .fault :=
  ⟨rfl, ⟨rfl, rfl⟩, rfl⟩
/-- UnmappedRangesAreOpenBus: the first and last address of each range, and the mapped neighbours. -/
theorem witness_unmapped :
    ([0x00004000, 0x01FFFFFF, 0x02040000, 0x02FFFFFF, 0x03008000, 0x03FFFFFF, 0x04000400, 0x04FFFFFF, 0x06020000,
      0x06FFFFFF, 0x0E000000, 0xFFFFFFFF] : List Word).all (fun a => (resolve a).region == .unmapped) = true ∧
    ([0x00003FFF, 0x02000000, 0x0203FFFF, 0x03000000, 0x03007FFF, 0x04000000, 0x040003FF, 0x05000000, 0x0601FFFF,
      0x07000000, 0x0DFFFFFF] : List Word).all (fun a => (resolve a).region != .unmapped) = true := by decide
/-- ResetReadsOpenBusOutsideRam: both clauses. -/
theorem witness_resetReads : (resolve 0x08000000).region.isRam = false ∧ (resolve 0x08000000).region ≠ .io ∧
    (resolve 0x040003FF).isPlain = true ∧ (resolve 0x04000003).isPlain = true := by decide
/-- ByteWriteThenRead: two addresses of one byte, and two of different bytes. -/
theorem witness_byteWrite : (resolve 0x06018000).isPlain = true ∧ resolve 0x06000000 = resolve 0x06018000 ∧
    (resolve 0x04000005).dependsOn (resolve 0x04000004) = false ∧
    (resolve 0x04000004).dependsOn (resolve 0x04000005) = true := ⟨rfl, by simp [resolve, vramIndex], rfl, rfl⟩
/-- PaletteAndOamMirrors: the last mirror and the first, of one byte. -/
theorem witness_mirrors : 0xFFFFFF < 0x01000000 ∧ 0xFFFFFF % 0x400 = 0x3FF % 0x400 := by omega
/-- VramAliasesInsideItsWindow: the last offset of each clause. -/
theorem witness_vram : (resolve (BitVec.ofNat 32 (0x06018000 + 0x7FFF))).index == 0x7FFF ∧
    (resolve (BitVec.ofNat 32 (0x06000000 + 0x17FFF))).index == 0x17FFF ∧
    (resolve (BitVec.ofNat 32 (0x06020000 + 0xFDFFFF))).region = .unmapped := ⟨rfl, rfl, rfl⟩
/-- CartridgeRepeatsInEveryWindow: the last offset, with and without an image. -/
theorem witness_cartridge : 0x01FFFFFF < 0x02000000 ∧ 0 < ([0xDE] : List Byte).length ∧
    ([] : List Byte).length = 0 := by decide
/-- BiosReadsItsLoadedImage: the last byte, not loaded; and the first address past the BIOS, and a cartridge byte. -/
theorem witness_bios : (0x3FFF#32).toNat < 0x4000 ∧ State.reset.biosLoaded = false ∧
    (resolve 0x4000).region ≠ .bios ∧ (resolve 0x08000000).region ≠ .bios := by decide
/-- VcountIsReadOnly: its two bytes. -/
theorem witness_vcount : (0x04000006#32 = 0x04000006#32 ∨ 0x04000006#32 = 0x04000007#32) ∧
    (0x04000007#32 = 0x04000006#32 ∨ 0x04000007#32 = 0x04000007#32) := by decide
/-- LittleEndianLanes: the last word of palette's window, and DISPCNT's neighbours. -/
theorem witness_lanes : ∀ j < 4, (resolve (0x05FFFFFC + BitVec.ofNat 32 j)).isPlain = true := by decide
/-- DispstatReadsFlagsOverStorage. -/
theorem witness_dispstat : ({ State.reset with dispstatShadow := 0xFFF8 }).dispstatShadow.extractLsb' 0 3 = 0 := by decide
/-- DispcntReadsBackAsWritten: a byte outside DISPCNT. -/
theorem witness_dispcnt : ∀ b ∈ [0x04000000#32, 0x04000001#32], (resolve 0x04000002).dependsOn (resolve b) = false :=
  outside_spec rfl
/-- StepRunsTheDecodedInstruction, FetchSeesEveryStore: an instruction in EWRAM. -/
theorem witness_step :
    let s := write16 (start code (nzcv false false false false) []) code 0x2105
    Runnable s ∧ decodeBytes [read8 s (pc s), read8 s (pc s + 1#32)] = .ok (.movImm8 1 5, []) ∧
      (resolve (pc s)).isPlain = true ∧ (resolve (pc s + 1#32)).isPlain = true :=
  ⟨⟨by decide, by decide⟩, by rfl, by decide, by decide⟩
/-- FaultsStopTheMachine: each of its clauses. -/
theorem witness_faults :
    (let s := { State.reset with cpsr := { nzcv false false false false with t := false } }
     s.status = .running ∧ s.cpsr.t = false) ∧
    (let s := { State.reset with config := { Config.standard with unimplPolicy := .fault } }
     Runnable s ∧ s.config.unimplPolicy = .fault ∧ inFallbackSpace (fetch s) = true) ∧
    { State.reset with status := .faulted (.unimplemented 0) }.status = .faulted (.unimplemented 0) :=
  ⟨⟨rfl, rfl⟩, ⟨⟨rfl, rfl⟩, rfl, by decide⟩, rfl⟩
/-- FlagWritersAreTheListed: instructions of each kind that complete, under two values of the flags. -/
theorem witness_flagWriters :
    (∃ t, exec (.movImm8 0 0) State.reset = .next t) ∧ (Instr.movImm8 0 0).flagWrites.cv = false ∧
    (Instr.bx 0).flagWrites.nz = false ∧ (Instr.b 0).flagWrites.t = false ∧ (Instr.cmpHi 0 0).flagWrites.cv = true ∧
    (Instr.ldrPc 0 0).flagWrites.nz = true ∧ (Instr.pop true 0).flagWrites.t = true ∧
    ∃ u, exec (.cmpHi 0 0) { State.reset with cpsr := nzcv true true true true } = .next u :=
  ⟨⟨_, rfl⟩, rfl, rfl, rfl, rfl, rfl, rfl, _, rfl⟩
/-- StepsCannotChangeReadOnlyState, StepKeepsTheInvariant: a step from reset, and an address of each region. -/
theorem witness_stepFromReset : (∃ t, step State.reset = .next t) ∧ (resolve 0x00003FFF).region = .bios ∧
    (resolve 0x0DFFFFFF).region = .rom ∧ (resolve 0x0E000000).region = .unmapped :=
  ⟨⟨_, rfl⟩, by decide, by decide, by decide⟩
/-- OnlyStoresChangeMemory: an instruction that is no store. -/
theorem witness_noStore : (∃ t, exec (.ldrImm5 0 1 2) State.reset = .next t) ∧
    (∀ lr rlist, Instr.ldrImm5 0 1 2 ≠ .push lr rlist) ∧ (∀ rd rb imm, Instr.ldrImm5 0 1 2 ≠ .strImm5 rd rb imm) ∧
    (∀ rd rb imm, Instr.ldrImm5 0 1 2 ≠ .strbImm5 rd rb imm) :=
  ⟨⟨_, rfl⟩, nofun, nofun, nofun⟩
/-- StepKeepsTheInvariant, RunsKeepTheInvariant: a state with stored bytes, and its step. -/
theorem witness_invariant :
    let s := write16 (start code (nzcv false false false false) []) code 0x2105
    MachineInv s ∧ ∃ t, step s = .next t :=
  ⟨⟨by decide, by decide, by decide⟩, _, rfl⟩
/-- ClearBit0KeepsPcEven: an even PC, and a step that enters ARM state. -/
theorem witness_clearBit0 :
    let s := { write16 (start code (nzcv false false false false) [(1, 0x102)]) code 0x4708 with
      config := { Config.standard with hiPcWrite := .clearBit0 } }
    s.config.hiPcWrite = .clearBit0 ∧ (pc s).toNat % 2 = 0 ∧ ∃ t, step s = .next t ∧ t.cpsr.t = false :=
  ⟨by decide, by decide, _, rfl, by decide⟩
/-- ResetLeavesTheListedValues: the default parameters. -/
theorem witness_standard : State.reset.config = Config.standard := rfl
/-- CartridgeLoadsSucceedOrChangeNothing: addresses outside the cartridge. -/
theorem witness_outsideCartridge : (resolve 0x07FFFFFF).region ≠ .rom ∧ (resolve 0x0E000000).region ≠ .rom := by decide
/-- DebugAccessorsReachTheNamedState: another index, and the I/O bytes beside DISPSTAT's low byte and VCOUNT. -/
theorem witness_otherIndex : 31 % 16 ≠ 16 % 16 ∧
    ([0x04000003, 0x04000005, 0x04000008] : List Word).all
      (fun a => a != 0x04000004#32 && a != 0x04000006#32 && a != 0x04000007#32) = true := by decide
/-- ImmediatesHaveTheirAssembledValues: both sides of the list's membership. -/
theorem witness_regList : (7 : Reg) ∈ regList 0x80 ∧ (8 : Reg) ∉ regList 0xFF ∧ lrReg ∈ pushList true 0 ∧
    lrReg ∉ pushList false 0xFF := by decide
/-- FallbackWordsAreTheListedRanges: a word on each side. -/
theorem witness_fallbackSpace : inFallbackSpace 0x17FF = true ∧ inFallbackSpace 0x1800 = false := by decide

end Sys2Proof.Tests
end

section
/-! PROOFS. The statements of 10_state.md: what every step keeps of the state record, and what the resets leave. Each
step's proof goes through `Effect`, which says once what the meanings of the instructions can do to a state. -/

namespace Sys2Proof.Machine

/-! ### Even and aligned words -/

theorem toNat_even_of_bit0 {n : Nat} {x : BitVec n} (h : x.getLsbD 0 = false) : x.toNat % 2 = 0 := by
  simpa [BitVec.getLsbD, Nat.testBit_zero] using h

theorem toNat_add_even {a b : Word} (ha : a.toNat % 2 = 0) (hb : b.toNat % 2 = 0) : (a + b).toNat % 2 = 0 := by
  rw [BitVec.toNat_add]
  omega

theorem and_clearBit0_even (v : Word) : (v &&& 0xFFFFFFFE#32).toNat % 2 = 0 := by
  refine toNat_even_of_bit0 ?_
  rw [BitVec.getLsbD_and]
  simp

theorem alignWord_mod_four (v : Word) : (alignWord v).toNat % 4 = 0 := by
  rw [← misalignment_eq, misalignment, alignWord, BitVec.extractLsb'_and]
  simp

theorem bOffset_even (imm : BitVec 11) : (bOffset imm).toNat % 2 = 0 := by
  have h : (bOffset imm).getLsbD 0 = false := by
    rw [bOffset, BitVec.getLsbD_signExtend, BitVec.getLsbD_append]
    simp
  exact toNat_even_of_bit0 h

theorem bcondOffset_even (imm : BitVec 8) : (bcondOffset imm).toNat % 2 = 0 := by
  simp only [bcondOffset, BitVec.toNat_shiftLeft, Nat.shiftLeft_eq]
  omega

/-! ### What an instruction can do -/

/-- The ways an instruction's meaning changes the post-fetch state, each with the flags R28 lists for it; the values
written stay open. A branch offset carries that it is even (R107), and a run of loads that it reaches low registers only
(R171). -/
inductive Effect (s : State) : FlagWrites → State → Prop
  /-- A condition that fails, or a fallback word under `nop`. -/
  | nothing : Effect s ⟨false, false, false⟩ s
  | valueNZ (rd : LowReg) (v : Word) : Effect s ⟨true, false, false⟩ (writeNZ s rd v)
  | alu (rd : LowReg) (a : AluResult) : Effect s ⟨true, true, false⟩ (writeAlu s rd a)
  | compare (a : AluResult) : Effect s ⟨true, true, false⟩ (setNZCV s a)
  | high (d : Reg) (v : Word) : Effect s ⟨false, false, false⟩ (hiWrite s d v)
  | exchange (v : Word) : Effect s ⟨false, false, true⟩ (interworkBranch s v)
  | branch (offset : Word) (even : offset.toNat % 2 = 0) : Effect s ⟨false, false, false⟩ (branchBy s offset)
  | storeWord (a v : Word) : Effect s ⟨false, false, false⟩ (storeWordRotated s a v)
  | storeByte (a : Word) (v : Byte) : Effect s ⟨false, false, false⟩ (write8 s a v)
  | push (rs : List Reg) (base : Word) :
      Effect s ⟨false, false, false⟩ (storeRegs rs base (writeReg s spReg base))
  | popLow (rlist : BitVec 8) (a cursor : Word) :
      Effect s ⟨false, false, false⟩ (writeReg (loadRegs (regList rlist) a s) spReg cursor)
  | popPc (rlist : BitVec 8) (a v cursor : Word) :
      Effect s ⟨false, false, true⟩
        (writeReg (interworkBranch (loadRegs (regList rlist) a s) v) spReg cursor)

/-- Every instruction that completes has one of the effects, with the flags R28 lists for it. -/
theorem exec_effect {i : Instr} {s t : State} (h : exec i s = .next t) : Effect s i.flagWrites t := by
  cases i with
  | addHi rd rs => cases h; exact .high ..
  | movHi rd rs => cases h; exact .high ..
  | cmpHi rd rs => cases h; exact .compare _
  | bx rs => cases h; exact .exchange _
  | addReg rd rs rn => cases h; exact .alu ..
  | subReg rd rs rn => cases h; exact .alu ..
  | addImm3 rd rs imm => cases h; exact .alu ..
  | subImm3 rd rs imm => cases h; exact .alu ..
  | addImm8 rd imm => cases h; exact .alu ..
  | subImm8 rd imm => cases h; exact .alu ..
  | movImm8 rd imm => cases h; exact .valueNZ ..
  | ldrPc rd imm => cases h; exact .valueNZ ..
  | ldrImm5 rd rb imm => cases h; exact .valueNZ ..
  | ldrbImm5 rd rb imm => cases h; exact .valueNZ ..
  | strImm5 rd rb imm => cases h; exact .storeWord ..
  | strbImm5 rd rb imm => cases h; exact .storeByte ..
  | push lr rlist => cases h; exact .push ..
  | pop pcBit rlist =>
    cases pcBit with
    | false => cases h; exact .popLow ..
    | true => cases h; exact .popPc ..
  | b imm => cases h; exact .branch _ (bOffset_even imm)
  | bcond cond imm =>
    simp only [exec, execBcond] at h
    split at h <;> cases h
    · exact .branch _ (bcondOffset_even imm)
    · exact .nothing
  | fallback word =>
    simp only [exec, execFallback, raise] at h
    split at h <;> cases h
    exact .nothing

/-- A step that completes began runnable, and its instruction completed on the state past the fetch. -/
theorem runnable_and_exec_of_step {s t : State} (h : step s = .next t) :
    Runnable s ∧ exec (decode (fetch s)) (advancePc s) = .next t := by
  obtain ⟨f, -, hf⟩ | ⟨hr, he⟩ := step_cases s
  · rw [hf] at h; cases h
  · exact ⟨hr, he ▸ h⟩

/-! ### Memory: read-only bytes and the invariant -/

variable {s t : State} {w : FlagWrites}

/-- No effect changes what a BIOS, cartridge or unmapped byte reads as (R54). -/
theorem Effect.read8_readOnly (h : Effect s w t) {a : Word}
    (ha : (resolve a).region = .bios ∨ (resolve a).region = .rom ∨ (resolve a).region = .unmapped) :
    read8 t a = read8 s a := by
  cases h with
  | storeWord b v => exact read8_write32_other s _ fun _ _ => dependsOn_readOnly ha
  | storeByte b v => exact read8_write8_other s v (dependsOn_readOnly ha)
  | push rs base => simp [read8_storeRegs_other _ rs base a fun _ _ => dependsOn_readOnly ha]
  | exchange v => simp
  | popLow rlist b cursor => simp
  | popPc rlist b v cursor => simp
  | nothing | valueNZ | alu | compare | high | branch => rfl

/-- Every effect keeps the invariant of the state record. -/
theorem Effect.inv (h : Effect s w t) (hs : MachineInv s) : MachineInv t := by
  cases h with
  | storeWord a v => exact inv_write32 hs _ _
  | storeByte a v => exact inv_write8 hs a v
  | push rs base => exact inv_storeRegs (inv_congr (t := writeReg s spReg base) hs rfl rfl rfl) rs base
  | exchange v => exact inv_congr hs (by simp) (by simp) (by simp)
  | popLow rlist a cursor => exact inv_congr hs (by simp) (by simp) (by simp)
  | popPc rlist a v cursor => exact inv_congr hs (by simp) (by simp) (by simp)
  | nothing | valueNZ | alu | compare | high | branch => exact inv_congr hs rfl rfl rfl

/-- Settles O49: read-only bytes by the effects, the fields by the frame every instruction has. -/
theorem stepsCannotChangeReadOnlyState : Obligations.StepsCannotChangeReadOnlyState := by
  intro s t h
  have he := (runnable_and_exec_of_step h).2
  have hk : SystemKept (advancePc s) t := exec_systemKept he
  exact ⟨hk, fun a ha => (exec_effect he).read8_readOnly ha⟩

/-- A step that completes keeps the invariant; the fetch changes no field the invariant reads. -/
theorem inv_step (hs : MachineInv s) (h : step s = .next t) : MachineInv t :=
  (exec_effect (runnable_and_exec_of_step h).2).inv (inv_congr hs rfl rfl rfl)

/-- Settles O52, by the effects. -/
theorem stepKeepsTheInvariant : Obligations.StepKeepsTheInvariant :=
  fun _ _ => inv_step

/-! ### Runs -/

theorem inv_advance (hs : MachineInv s) : MachineInv (advance s) := by
  unfold advance
  split
  next h => exact inv_step hs h
  next => exact inv_congr hs rfl rfl rfl
  next => exact hs

theorem inv_busReset (s : State) : MachineInv (busReset s) :=
  ⟨Memory.wf_nil, nofun, by simp [busReset]⟩

/-- A BIOS load lists bytes of the BIOS buffer, and otherwise bytes that were listed (R270). -/
theorem inv_loadBios (hs : MachineInv s) (image : Option (List Byte)) : MachineInv (loadBios image s).2 := by
  cases image with
  | none => exact hs
  | some b =>
    obtain ⟨hwf, hkeys, hlow⟩ := hs
    refine ⟨Memory.wf_loadBios hwf (some b), fun c hc => ?_, hlow⟩
    rcases List.mem_append.mp hc with hc | hc
    · have hlt := (Memory.mem_cellsFrom hc).2.1
      simp only [List.length_take, biosSize] at hlt
      refine keyBacked_of_region .bios (by decide) (Nat.zero_le _) ?_ (by omega)
      simp only [Region.base, Region.size]
      omega
    · exact hkeys c (List.mem_of_mem_filter hc)

/-- A cartridge load lists bytes of the new image, and otherwise bytes below the cartridge (R271, R272). -/
theorem inv_setRom (hs : MachineInv s) (b : List Byte) : MachineInv (setRom b s) := by
  obtain ⟨hwf, hkeys, hlow⟩ := hs
  refine ⟨Memory.wf_setRom hwf b, fun c hc => ?_, hlow⟩
  rcases List.mem_append.mp hc with hc | hc
  · obtain ⟨hm, hlt⟩ := List.mem_filter.mp hc
    exact keyBacked_below_rom (hkeys c hm) (of_decide_eq_true hlt)
  · obtain ⟨hlo, hhi, -⟩ := Memory.mem_cellsFrom hc
    refine keyBacked_of_region .rom (by decide) hlo hhi ?_
    simp only [Region.base] at hlo
    omega

/-- Every host operation keeps the invariant. -/
theorem inv_runHostOp (hs : MachineInv s) (op : HostOp) : MachineInv (runHostOp op s) := by
  cases op with
  | busReset => exact inv_busReset s
  | loadBios image => exact inv_loadBios hs image
  | loadGamepakBytes image => exact inv_setRom hs image
  | loadGamepakFile image =>
    match image with
    | none | some [] => exact hs
    | some (x :: rest) => exact inv_setRom hs (x :: rest)
  | write8 a v => exact inv_write8 hs a v
  | write16 a v => exact inv_write8 (inv_write8 hs _ _) _ _
  | write32 a v => exact inv_write32 hs a v
  | cpuReset | setScanline | setHblank | setReg | setPc => exact inv_congr hs rfl rfl rfl

theorem inv_runEvent (hs : MachineInv s) (e : Event) : MachineInv (runEvent e s) := by
  cases e with
  | step => exact inv_advance hs
  | host op => exact inv_runHostOp hs op

/-- Settles O53, by induction on the list of events. -/
theorem runsKeepTheInvariant : Obligations.RunsKeepTheInvariant := by
  intro events
  induction events with
  | nil => exact fun _ hs => hs
  | cons e rest ih => exact fun s hs => ih _ (inv_runEvent hs e)

/-! ### Flags -/

/-- An effect leaves the flags it is not listed for. -/
theorem Effect.flags_kept (h : Effect s w t) :
    (w.nz = false → t.cpsr.n = s.cpsr.n ∧ t.cpsr.z = s.cpsr.z) ∧
    (w.cv = false → t.cpsr.c = s.cpsr.c ∧ t.cpsr.v = s.cpsr.v) ∧
    (w.t = false → t.cpsr.t = s.cpsr.t) := by
  cases h <;> simp [writeNZ, writeAlu, hiWrite, branchBy, storeWordRotated]

/-- The flags an instruction is listed for do not depend on the flags before it: operands and memory are read through
fields other than the CPSR. -/
theorem exec_flags_written {i : Instr} {f : Cpsr} {s t u : State} (ht : exec i s = .next t)
    (hu : exec i { s with cpsr := f } = .next u) :
    (i.flagWrites.nz = true → u.cpsr.n = t.cpsr.n ∧ u.cpsr.z = t.cpsr.z) ∧
    (i.flagWrites.cv = true → u.cpsr.c = t.cpsr.c ∧ u.cpsr.v = t.cpsr.v) ∧
    (i.flagWrites.t = true → u.cpsr.t = t.cpsr.t) := by
  cases i with
  | movImm8 | ldrPc | ldrImm5 | ldrbImm5 => cases ht; cases hu; exact ⟨fun _ => ⟨rfl, rfl⟩, nofun, nofun⟩
  | addImm8 | subImm8 | addReg | subReg | addImm3 | subImm3 | cmpHi =>
    cases ht; cases hu; exact ⟨fun _ => ⟨rfl, rfl⟩, fun _ => ⟨rfl, rfl⟩, nofun⟩
  | bx rs =>
    cases ht; cases hu
    exact ⟨nofun, nofun, fun _ => by simp only [interworkBranch_t]; rfl⟩
  | pop pcBit rlist =>
    cases pcBit with
    | false => exact ⟨nofun, nofun, nofun⟩
    | true =>
      cases ht; cases hu
      exact ⟨nofun, nofun, fun _ => by simp only [writeReg_cpsr, interworkBranch_t, read32_loadRegs]; rfl⟩
  | addHi | movHi | push | b | bcond | strImm5 | strbImm5 | fallback => exact ⟨nofun, nofun, nofun⟩

/-- Settles O48: the unlisted flags by the effects, the listed ones instruction by instruction. -/
theorem flagWritersAreTheListed : Obligations.FlagWritersAreTheListed :=
  ⟨fun _ _ _ h => (exec_effect h).flags_kept, fun _ _ _ _ _ => exec_flags_written, fun _ => rfl⟩

/-! ### An even PC -/

theorem pcReg_ne_lowReg (r : LowReg) : pcReg ≠ lowReg r :=
  Fin.ne_of_gt (Nat.lt_trans r.isLt (by decide))

/-- PC is even, and in ARM state a multiple of 4. -/
def PcAligned (s : State) : Prop :=
  (pc s).toNat % 2 = 0 ∧ (s.cpsr.t = false → (pc s).toNat % 4 = 0)

/-- The alignment depends on PC and T only. -/
theorem PcAligned.congr (h : PcAligned s) (hpc : pc t = pc s) (ht : t.cpsr.t = s.cpsr.t) : PcAligned t := by
  unfold PcAligned at *
  rwa [hpc, ht]

/-- The state-switching branch aligns its target for the state it enters (R160). -/
theorem pcAligned_interworkBranch (s : State) (v : Word) : PcAligned (interworkBranch s v) := by
  unfold PcAligned pc
  rw [readReg_interworkBranch, interworkBranch_t, if_pos rfl]
  have h4 : (v &&& 0xFFFFFFFC#32).toNat % 4 = 0 := alignWord_mod_four v
  split
  next hb => exact ⟨and_clearBit0_even v, by simp [hb]⟩
  next => exact ⟨by omega, fun _ => h4⟩

theorem pcAligned_of_thumb (hpc : (pc s).toNat % 2 = 0) (ht : s.cpsr.t = true) : PcAligned s :=
  ⟨hpc, by simp [ht]⟩

/-- A write of any register but PC leaves PC. -/
theorem pc_writeReg_ne {r : Reg} (v : Word) (h : pcReg ≠ r) : pc (writeReg s r v) = pc s :=
  readReg_writeReg_ne s v h

theorem pcReg_notMem_regList (rlist : BitVec 8) : pcReg ∉ regList rlist := fun h =>
  absurd (regList_lt h) (by decide)

/-- Under clear_bit0 an effect on a Thumb state with an even PC leaves PC aligned for the state it ends in (R141, R160,
R183). -/
theorem Effect.pcAligned (h : Effect s w t) (hc : s.config.hiPcWrite = .clearBit0) (ht : s.cpsr.t = true)
    (hpc : (pc s).toNat % 2 = 0) : PcAligned t := by
  have hs : PcAligned s := pcAligned_of_thumb hpc ht
  have hsp : pcReg ≠ spReg := by decide
  cases h with
  | nothing | compare => exact hs
  | valueNZ rd v => exact hs.congr (pc_writeReg_ne v (pcReg_ne_lowReg rd)) rfl
  | alu rd a => exact hs.congr (pc_writeReg_ne a.value (pcReg_ne_lowReg rd)) rfl
  | high d v =>
    by_cases hd : pcReg = d
    · subst hd
      refine pcAligned_of_thumb ?_ ht
      simpa [pc, hiWrite, hiValue, hc] using and_clearBit0_even v
    · exact hs.congr (pc_writeReg_ne _ hd) rfl
  | exchange v => exact pcAligned_interworkBranch s v
  | branch offset even =>
    refine pcAligned_of_thumb ?_ ht
    rw [branchBy, pc, readReg_writeReg_same]
    exact toNat_add_even hpc even
  | storeWord a v => exact hs.congr (readReg_write32 ..) (by simp [storeWordRotated])
  | storeByte a v => exact hs.congr (readReg_write8 ..) (by simp)
  | push rs base => exact hs.congr ((readReg_storeRegs ..).trans (pc_writeReg_ne base hsp)) (by simp)
  | popLow rlist a cursor =>
    exact hs.congr ((pc_writeReg_ne cursor hsp).trans (readReg_loadRegs_ne s a (pcReg_notMem_regList rlist)))
      (by simp)
  | popPc rlist a v cursor =>
    exact (pcAligned_interworkBranch _ v).congr (pc_writeReg_ne cursor hsp) rfl

/-- Settles O54: the fetch advances an even PC by 2, and the effect keeps it aligned. -/
theorem clearBit0KeepsPcEven : Obligations.ClearBit0KeepsPcEven := by
  intro s t hc hpc h
  obtain ⟨⟨-, ht⟩, he⟩ := runnable_and_exec_of_step h
  refine (exec_effect he).pcAligned hc ht ?_
  rw [advancePc, pc, readReg_writeReg_same]
  exact toNat_add_even hpc rfl

/-! ### Reset -/

/-- Settles O51: no byte is listed, and DISPSTAT's shadow is zero. -/
theorem resetMeetsTheInvariant : Obligations.ResetMeetsTheInvariant :=
  ⟨Memory.wf_nil, nofun, by decide⟩

theorem backing_busReset (s : State) (p : Place) : backing (busReset s) p = 0#8 := rfl

theorem readReg_cpuReset (s : State) (r : Reg) : readReg (cpuReset s) r = 0 := by
  simp [readReg, cpuReset]

/-- The CPSR of Thumb state with N, Z, C and V clear (R27). -/
theorem toWord_thumbOnly : Cpsr.toWord ⟨false, false, false, false, true⟩ = 0x00000020#32 := by decide

/-- The halfword at DISPSTAT's address is `dispstat_read16()`, low byte first (R53, R72). -/
theorem read16_dispstat (s : State) : read16 s 0x04000004#32 = dispstatRead16 s := by
  have h4 : resolve 0x04000004#32 = dispstatLow := by decide
  have h5 : resolve (0x04000004#32 + 1#32) = dispstatHigh := by decide
  unfold read16 read8
  rw [h4, h5]
  exact half_join (dispstatRead16 s)

/-- With scanline and LYC both zero, DISPSTAT is its VCount-match flag alone (R72, R78). -/
theorem dispstatRead16_busReset (s : State) : dispstatRead16 (busReset s) = 0x0004#16 := by
  simp [dispstatRead16, vblankFlag, vcountMatch, lyc, busReset]

theorem cpuReset_busReset_eq_reset (h : s.config = Config.standard) : cpuReset (busReset s) = State.reset := by
  simp [cpuReset, busReset, State.reset, h]

/-- Settles O57: the two resets between them write every field but the parameters. -/
theorem resetLeavesTheListedValues : Obligations.ResetLeavesTheListedValues := fun s =>
  ⟨readReg_cpuReset _, rfl, toWord_thumbOnly, rfl, backing_busReset s, rfl, rfl, rfl, rfl, rfl, rfl,
    cpuReset_busReset_eq_reset⟩

/-- Settles O58: each reset writes its own fields and no other. -/
theorem resetsAreIndependent : Obligations.ResetsAreIndependent := fun s =>
  ⟨⟨backing_busReset s, rfl, rfl, rfl, rfl, rfl, fun _ _ => rfl, rfl, rfl,
      (read16_dispstat _).trans (dispstatRead16_busReset s)⟩,
    readReg_cpuReset s, rfl, toWord_thumbOnly, rfl, ⟨fun _ => rfl, rfl, rfl⟩, rfl, rfl, rfl, rfl⟩

end Sys2Proof.Machine
end

section
/-! PROOFS. The statements of 20_memory.md: the address map, byte and wide accesses, the loads that reads show, and the
I/O registers. The map comes first, as what an address in a range resolves to; then what a read or a write does at each
kind of place. -/

namespace Sys2Proof.Machine

variable {s t : State} {a b : Word}

/-! ### The address map (R51) -/

/-- The addresses of no region are the ranges of R65. -/
theorem resolve_unmapped_iff (a : Word) :
    (resolve a).region = .unmapped ↔
      (0x00004000 ≤ a.toNat ∧ a.toNat < 0x02000000) ∨ (0x02040000 ≤ a.toNat ∧ a.toNat < 0x03000000) ∨
      (0x03008000 ≤ a.toNat ∧ a.toNat < 0x04000000) ∨ (0x04000400 ≤ a.toNat ∧ a.toNat < 0x05000000) ∨
      (0x06020000 ≤ a.toNat ∧ a.toNat < 0x07000000) ∨ 0x0E000000 ≤ a.toNat := by
  unfold resolve
  simp only
  split_ifs <;> simp only [false_iff, true_iff] <;> omega

/-- No address of the mapped space wraps. -/
theorem toNat_ofNat_mapped {n : Nat} (h : n < 0x10000000) : (BitVec.ofNat 32 n).toNat = n := by
  rw [BitVec.toNat_ofNat, Nat.mod_eq_of_lt (by omega)]

theorem resolve_bios (h : a.toNat < 0x4000) : resolve a = ⟨.bios, a.toNat⟩ := by
  unfold resolve
  exact if_pos h

theorem resolve_palette {k : Nat} (h : k < 0x01000000) :
    resolve (BitVec.ofNat 32 (0x05000000 + k)) = ⟨.palette, k % 0x400⟩ := by
  unfold resolve
  simp only [toNat_ofNat_mapped (n := 0x05000000 + k) (by omega)]
  iterate 4 rw [if_neg (by omega)]
  rw [if_pos (by omega), Nat.add_sub_cancel_left]

theorem resolve_vram {k : Nat} (h : k < 0x20000) :
    resolve (BitVec.ofNat 32 (0x06000000 + k)) = ⟨.vram, vramIndex k⟩ := by
  unfold resolve
  simp only [toNat_ofNat_mapped (n := 0x06000000 + k) (by omega)]
  iterate 5 rw [if_neg (by omega)]
  rw [if_pos (by omega), Nat.add_sub_cancel_left]

theorem resolve_oam {k : Nat} (h : k < 0x01000000) :
    resolve (BitVec.ofNat 32 (0x07000000 + k)) = ⟨.oam, k % 0x400⟩ := by
  unfold resolve
  simp only [toNat_ofNat_mapped (n := 0x07000000 + k) (by omega)]
  iterate 6 rw [if_neg (by omega)]
  rw [if_pos (by omega), Nat.add_sub_cancel_left]

/-- The three cartridge windows as one range of 96 MiB (R51, R64). -/
theorem resolve_rom {k : Nat} (h : k < 0x06000000) :
    resolve (BitVec.ofNat 32 (0x08000000 + k)) = ⟨.rom, k % 0x02000000⟩ := by
  unfold resolve
  simp only [toNat_ofNat_mapped (n := 0x08000000 + k) (by omega)]
  iterate 7 rw [if_neg (by omega)]
  rw [if_pos (by omega), Nat.add_sub_cancel_left]

/-! ### Accesses by place (R52, R54) -/

/-- A read sees its address only through the place it names. -/
theorem read8_congr_resolve (s : State) (h : resolve a = resolve b) : read8 s a = read8 s b := by
  unfold read8
  rw [h]

/-- A write sees its address only through the place it names. -/
theorem write8_congr_resolve (s : State) (v : Byte) (h : resolve a = resolve b) : write8 s a v = write8 s b v := by
  unfold write8
  rw [h]

theorem read8_unmapped (s : State) (h : (resolve a).region = .unmapped) : read8 s a = openBus := by
  simp only [read8, h]

theorem read8_bios (s : State) (h : (resolve a).region = .bios) :
    read8 s a = if s.biosLoaded then backing s (resolve a) else openBus := by
  simp only [read8, h]

theorem read8_rom (s : State) (h : (resolve a).region = .rom) : read8 s a = romRead8 s (resolve a).index := by
  simp only [read8, h]

/-- BIOS, cartridge and unmapped space discard a write (R54). -/
theorem write8_readOnly (s : State) (v : Byte)
    (h : (resolve a).region = .bios ∨ (resolve a).region = .rom ∨ (resolve a).region = .unmapped) :
    write8 s a v = s := by
  rcases h with h | h | h <;> simp only [write8, h]

/-- An I/O byte other than DISPSTAT's and VCOUNT's is its backing byte (R77). -/
theorem ioRead8_plain (s : State) {off : Nat} (h : isTypedIo off = false) : ioRead8 s off = backing s ⟨.io, off⟩ := by
  unfold ioRead8
  split
  iterate 4 exact absurd h (by decide)
  rfl

/-- A plain byte reads as its backing byte. -/
theorem read8_plain (s : State) (h : (resolve a).isPlain = true) : read8 s a = backing s (resolve a) := by
  unfold read8
  rcases hr : resolve a with ⟨r, i⟩
  rw [hr] at h
  cases r with
  | ewram | iwram | palette | vram | oam => rfl
  | io => exact ioRead8_plain s (by simpa [Place.isPlain, Region.isRam] using h)
  | bios | rom | unmapped => simp [Place.isPlain, Region.isRam] at h

/-- Settles O33: the ranges by arithmetic on the map, the accesses by the region. -/
theorem unmappedRangesAreOpenBus : Obligations.UnmappedRangesAreOpenBus := fun s a v =>
  ⟨resolve_unmapped_iff a, fun h => ⟨read8_unmapped s h, write8_readOnly s v (.inr (.inr h))⟩⟩

/-- Settles O35, by the laws of a read after a byte write. -/
theorem byteWriteThenRead : Obligations.ByteWriteThenRead := fun s _ _ v =>
  ⟨read8_write8_same s v, read8_write8_other s v⟩

/-- Settles O34: with no BIOS and no cartridge a read outside RAM and I/O is open bus, and no byte is listed. -/
theorem resetReadsOpenBusOutsideRam : Obligations.ResetReadsOpenBusOutsideRam := by
  intro a
  refine ⟨fun hram hio => ?_, fun h => read8_plain State.reset h⟩
  cases hr : (resolve a).region with
  | bios => exact read8_bios State.reset hr
  | rom => exact read8_rom State.reset hr
  | unmapped => exact read8_unmapped State.reset hr
  | io => exact absurd hr hio
  | ewram | iwram | palette | vram | oam => rw [hr] at hram; cases hram

/-! ### Mirrors (R61 to R63) -/

/-- A region of RAM that repeats every 1 KiB over the 16 MiB from `base` is read and written through every mirror
alike. -/
theorem mirrors_of_resolve {base : Nat} {r : Region} (hram : r.isRam = true)
    (hmap : ∀ k < 0x01000000, resolve (BitVec.ofNat 32 (base + k)) = ⟨r, k % 0x400⟩) (s : State) {j k : Nat} (v : Byte)
    (hj : j < 0x01000000) (hk : k < 0x01000000) :
    resolve (BitVec.ofNat 32 (base + k)) = ⟨r, k % 0x400⟩ ∧
      read8 s (BitVec.ofNat 32 (base + k)) = read8 s (BitVec.ofNat 32 (base + k % 0x400)) ∧
      write8 s (BitVec.ofNat 32 (base + k)) v = write8 s (BitVec.ofNat 32 (base + k % 0x400)) v ∧
      (j % 0x400 = k % 0x400 →
        read8 (write8 s (BitVec.ofNat 32 (base + k)) v) (BitVec.ofNat 32 (base + j)) = v) := by
  have hfirst : resolve (BitVec.ofNat 32 (base + k)) = resolve (BitVec.ofNat 32 (base + k % 0x400)) := by
    rw [hmap k hk, hmap _ (by omega), Nat.mod_mod]
  have hplain : (resolve (BitVec.ofNat 32 (base + k))).isPlain = true := by
    simp [hmap k hk, Place.isPlain, hram]
  exact ⟨hmap k hk, read8_congr_resolve s hfirst, write8_congr_resolve s v hfirst, fun h =>
    read8_write8_same s v hplain (by rw [hmap j hj, hmap k hk, h])⟩

/-- Settles O36: both regions resolve by the offset modulo 1 KiB. -/
theorem paletteAndOamMirrors : Obligations.PaletteAndOamMirrors := fun s _ _ v hj hk =>
  ⟨mirrors_of_resolve rfl (fun _ => resolve_palette) s v hj hk, mirrors_of_resolve rfl (fun _ => resolve_oam) s v hj hk⟩

/-- Settles O37: offsets from 96 KiB resolve to those from 0, and offsets from 128 KiB lie in a range of R65. -/
theorem vramAliasesInsideItsWindow : Obligations.VramAliasesInsideItsWindow := by
  intro s k
  refine ⟨fun h => ?_, fun h => ?_, fun h => read8_unmapped s ?_⟩
  · have halias : resolve (BitVec.ofNat 32 (0x06000000 + (0x18000 + k))) =
        resolve (BitVec.ofNat 32 (0x06000000 + k)) := by
      rw [resolve_vram (by omega), resolve_vram (by omega), vramIndex, vramIndex, if_neg (by omega), if_pos (by omega),
        Nat.add_sub_cancel_left]
    rw [← Nat.add_assoc] at halias
    exact read8_congr_resolve s halias
  · rw [resolve_vram (by omega), vramIndex, if_pos h]
  · rw [resolve_unmapped_iff, toNat_ofNat_mapped (by omega)]
    omega

/-! ### Loaded images (R57, R64) -/

/-- Byte `i` of a loaded cartridge, zero past its end. -/
theorem backing_setRom (s : State) (image : List Byte) (i : Nat) :
    backing (setRom image s) ⟨.rom, i⟩ = image.getD i 0#8 := by
  have hbelow : ∀ c ∈ Memory.below s.mem (Region.base .rom), c.1 ≠ Region.base .rom + i := fun c hc => by
    have hlt : c.1 < Region.base .rom := by simpa [Memory.below] using (List.mem_filter.mp hc).2
    omega
  exact (Memory.read_append _ _ _ hbelow).trans (Memory.read_cellsFrom image _ i)

/-- The cartridge region shows a loaded image repeated, and an empty one as open bus (R64). -/
theorem romRead8_setRom (s : State) (image : List Byte) (i : Nat) :
    (∀ h : 0 < image.length, romRead8 (setRom image s) i = image[i % image.length]'(Nat.mod_lt _ h)) ∧
    (image.length = 0 → romRead8 (setRom image s) i = openBus) := by
  refine ⟨fun h => ?_, fun h => if_pos h⟩
  have hsize : (setRom image s).romSize = image.length := rfl
  rw [romRead8, hsize, if_neg (Nat.ne_of_gt h), backing_setRom]
  exact List.getD_eq_getElem _ _ (Nat.mod_lt _ h)

/-- Offset `i` of each cartridge window is byte `i` of the cartridge region. -/
theorem read8_windows (s : State) {i : Nat} (h : i < 0x02000000) :
    read8 s (BitVec.ofNat 32 (0x08000000 + i)) = romRead8 s i ∧
    read8 s (BitVec.ofNat 32 (0x0A000000 + i)) = romRead8 s i ∧
    read8 s (BitVec.ofNat 32 (0x0C000000 + i)) = romRead8 s i := by
  have window : ∀ w < 3, read8 s (BitVec.ofNat 32 (0x08000000 + (0x02000000 * w + i))) = romRead8 s i := by
    intro w hw
    have hmap := resolve_rom (k := 0x02000000 * w + i) (by omega)
    rw [Nat.mul_add_mod, Nat.mod_eq_of_lt h] at hmap
    rw [read8_rom s (by rw [hmap]), hmap]
  have h0 := window 0 (by omega)
  have h1 := window 1 (by omega)
  have h2 := window 2 (by omega)
  simp only [← Nat.add_assoc, Nat.reduceMul, Nat.reduceAdd] at h0 h1 h2
  exact ⟨h0, h1, h2⟩

/-- Settles O38: each window is the cartridge region, which repeats the image. -/
theorem cartridgeRepeatsInEveryWindow : Obligations.CartridgeRepeatsInEveryWindow := by
  intro s image i hi t
  obtain ⟨h8, hA, hC⟩ := read8_windows t hi
  obtain ⟨himage, hempty⟩ := romRead8_setRom s image i
  rw [h8, hA, hC]
  exact ⟨fun h => ⟨himage h, himage h, himage h⟩, fun h => ⟨hempty h, hempty h, hempty h⟩⟩

/-- Byte `k` of a loaded BIOS, zero past the image's end (R270). -/
theorem backing_loadBios (s : State) (image : List Byte) {k : Nat} (hk : k < biosSize) :
    backing (loadBios (some image) s).2 ⟨.bios, k⟩ = image.getD k 0#8 := by
  have habove : ∀ c ∈ Memory.atOrAbove s.mem biosSize, c.1 ≠ 0 + k := fun c hc => by
    have hle : biosSize ≤ c.1 := by simpa [Memory.atOrAbove] using (List.mem_filter.mp hc).2
    omega
  have hread := (Memory.read_append_left _ _ _ habove).trans (Memory.read_cellsFrom (image.take biosSize) 0 k)
  rw [List.getD_eq_getElem?_getD, List.getElem?_take_of_lt hk, ← List.getD_eq_getElem?_getD] at hread
  exact hread

/-- A read outside the BIOS sees backing bytes past the BIOS, N_rom and the fields behind DISPSTAT and VCOUNT only. -/
theorem read8_congr_outside_bios (ha : (resolve a).region ≠ .bios)
    (hm : ∀ k, biosSize ≤ k → Memory.read t.mem k = Memory.read s.mem k) (hr : t.romSize = s.romSize)
    (hd : dispstatRead16 t = dispstatRead16 s) (hl : t.scanline = s.scanline) : read8 t a = read8 s a := by
  have hb : ∀ {r : Region} (i : Nat), biosSize ≤ r.base → backing t ⟨r, i⟩ = backing s ⟨r, i⟩ :=
    fun i h => hm _ (Nat.le_add_right_of_le h)
  unfold read8
  rcases hp : resolve a with ⟨r, i⟩
  rw [hp] at ha
  cases r with
  | bios => exact absurd rfl ha
  | ewram | iwram | palette | vram | oam => exact hb i (by decide)
  | io =>
    simp only [ioRead8, hd, hl, hb i (r := .io) (by decide)]
  | rom => simp only [romRead8, hr, hb _ (r := .rom) (by decide)]
  | unmapped => rfl

/-- Settles O39: the two halves of a load are the image's cells and the cells past the BIOS. -/
theorem biosReadsItsLoadedImage : Obligations.BiosReadsItsLoadedImage := by
  refine ⟨fun s image a v ha => ?_, fun s image => ?_⟩
  · have hmap := resolve_bios ha
    have hreg : (resolve a).region = .bios := by rw [hmap]
    refine ⟨fun h => ?_, rfl, rfl, ?_, rfl, write8_readOnly s v (.inl hreg), rfl⟩
    · rw [read8_bios s hreg, h]; rfl
    · rw [read8_bios _ hreg, hmap]
      exact backing_loadBios s image ha
  · exact ⟨fun _ _ => rfl, rfl, rfl, rfl, rfl, rfl, rfl, rfl, fun a ha =>
      read8_congr_outside_bios ha (fun _ => Memory.read_loadBios s (some image)) rfl rfl rfl⟩

/-! ### Wide accesses (R53, R66) -/

theorem read16_toNat (s : State) (a : Word) :
    (read16 s a).toNat = (read8 s a).toNat + 256 * (read8 s (a + 1#32)).toNat := by
  rw [read16, toNat_append]
  omega

theorem read32_toNat (s : State) (a : Word) :
    (read32 s a).toNat = (read8 s a).toNat + 2 ^ 8 * (read8 s (a + 1#32)).toNat +
      2 ^ 16 * (read8 s (a + 2#32)).toNat + 2 ^ 24 * (read8 s (a + 3#32)).toNat := by
  rw [read32, toNat_append, toNat_append, toNat_append]
  omega

/-- Two adjacent bytes of a word are a halfword of it. -/
theorem byteOf_append (w : Word) (k : Nat) : byteOf w (k + 1) ++ byteOf w k = w.extractLsb' (8 * k) 16 :=
  BitVec.extractLsb'_append_extractLsb'_eq_extractLsb' (by omega)

/-- A halfword inside a word just written, where the map has plain storage for it. -/
theorem read16_write32 (s : State) (w : Word) (hp : PlainWord a) {k : Nat} (hk : k < 3) :
    read16 (write32 s a w) (a + BitVec.ofNat 32 k) = w.extractLsb' (8 * k) 16 := by
  have hnext : a + BitVec.ofNat 32 k + 1#32 = a + BitVec.ofNat 32 (k + 1) := by
    rw [BitVec.add_assoc, BitVec.ofNat_add]
  rw [read16, hnext, read8_write32_byte s a w (by omega) (hp _ (by omega)),
    read8_write32_byte s a w (by omega) (hp _ (by omega)), byteOf_append]

/-- Settles O40: the bytes of a written word, joined two and four at a time, and the sums every wide read is. -/
theorem littleEndianLanes : Obligations.LittleEndianLanes := by
  refine ⟨fun s a w hp => ⟨read32_write32 s a w hp, ?_, read16_write32 s w hp (k := 2) (by omega),
    fun k hk => read8_write32_byte s a w hk (hp k hk)⟩, fun s a => ⟨read16_toNat s a, read32_toNat s a⟩,
    fun s => read16_toNat s (pc s)⟩
  simpa using read16_write32 s w hp (k := 0) (by omega)

/-- Settles O55: the guard passes, and the fetch reads the halfword just written. -/
theorem fetchSeesEveryStore : Obligations.FetchSeesEveryStore := by
  intro s h h0 h1 hrun
  have hpc : pc (write16 s (pc s) h) = pc s := by simp [pc, readReg]
  have hfetch : fetch (write16 s (pc s) h) = h := by rw [fetch, hpc, read16_write16 s _ h h0 h1]
  have hguard : stepGuard (write16 s (pc s) h) = none := stepGuard_runnable (by simpa [Runnable] using hrun)
  rw [step, hguard, hfetch]

/-! ### Instructions that store nothing (R68) -/

/-- Settles O50, instruction by instruction: each meaning but the three stores is a change of registers and flags. -/
theorem onlyStoresChangeMemory : Obligations.OnlyStoresChangeMemory := by
  intro i s t h hpush hstr hstrb
  cases i with
  | push lr rlist => exact absurd rfl (hpush lr rlist)
  | strImm5 rd rb imm => exact absurd rfl (hstr rd rb imm)
  | strbImm5 rd rb imm => exact absurd rfl (hstrb rd rb imm)
  | addHi | cmpHi | movHi | addReg | subReg | addImm3 | subImm3 | movImm8 | addImm8 | subImm8 | ldrPc | ldrImm5
  | ldrbImm5 | b => cases h; exact ⟨fun _ => rfl, rfl, rfl⟩
  | bx rs =>
    cases h
    obtain ⟨-, -, hmem, -⟩ := interworkBranch_frame s (readReg s rs)
    exact hmem
  | pop pcBit rlist =>
    cases pcBit <;> cases h <;> exact ⟨fun _ => by simp, by simp, by simp⟩
  | bcond cond imm =>
    simp only [exec, execBcond] at h
    split at h <;> cases h <;> exact ⟨fun _ => rfl, rfl, rfl⟩
  | fallback word =>
    simp only [exec, execFallback, raise] at h
    split at h <;> cases h
    exact ⟨fun _ => rfl, rfl, rfl⟩

/-! ### DISPSTAT (R72 to R74) -/

theorem write8_dispstatLow (s : State) (v : Byte) :
    write8 s 0x04000004#32 v = { s with dispstatShadow := s.dispstatShadow.extractLsb' 8 8 ++ (v &&& 0xF8#8) } := by
  have hmap : resolve 0x04000004#32 = dispstatLow := by decide
  rw [write8, hmap]
  rfl

theorem write8_dispstatHigh (s : State) (v : Byte) :
    write8 s 0x04000005#32 v = { s with dispstatShadow := v ++ s.dispstatShadow.extractLsb' 0 8 } := by
  have hmap : resolve 0x04000005#32 = dispstatHigh := by decide
  rw [write8, hmap]
  rfl

/-- DISPSTAT's writable bits are all of the high byte and bits 3 to 7 of the low one (R73). -/
theorem writableBits_join (v : Half) :
    v.extractLsb' 8 8 ++ (v.extractLsb' 0 8 &&& 0xF8#8) = v &&& 0xFFF8#16 := by
  have hmask : v &&& 0xFFF8#16 = (v &&& 0xFFF8#16).extractLsb' 8 8 ++ (v &&& 0xFFF8#16).extractLsb' 0 8 :=
    (half_join _).symm
  have hhigh : (0xFFF8#16).extractLsb' 8 8 = BitVec.allOnes 8 := by decide
  have hlow : (0xFFF8#16).extractLsb' 0 8 = 0xF8#8 := by decide
  rw [hmask, BitVec.extractLsb'_and, BitVec.extractLsb'_and, hhigh, hlow, BitVec.and_allOnes]

theorem write16_dispstat (s : State) (v : Half) :
    write16 s 0x04000004#32 v = { s with dispstatShadow := v &&& 0xFFF8#16 } := by
  have hnext : 0x04000004#32 + 1#32 = 0x04000005#32 := by decide
  rw [write16, hnext, write8_dispstatLow, write8_dispstatHigh, BitVec.extractLsb'_append_eq_right, writableBits_join]

/-- A flag shifted to bit `n` of a halfword is that bit alone. -/
theorem getLsbD_flag (b : Bool) {n : Nat} (hn : n < 16) (k : Nat) :
    ((BitVec.ofBool b).setWidth 16 <<< n).getLsbD k = (decide (k = n) && b) := by
  simp only [BitVec.getLsbD_shiftLeft, BitVec.getLsbD_setWidth, BitVec.getLsbD_ofBool]
  by_cases hk : k = n
  · simp [hk, hn]
  · have hsub : k < n ∨ k - n ≠ 0 := by omega
    rcases hsub with hlt | hne
    · simp [hk, hlt]
    · simp [hk, hne]

/-- Bit by bit: the stored bits, with the three flags over bits 0 to 2 (R72). -/
theorem getLsbD_dispstatRead16 (s : State) (k : Nat) :
    (dispstatRead16 s).getLsbD k = (s.dispstatShadow.getLsbD k || (decide (k = 0) && vblankFlag s) ||
      (decide (k = 1) && s.hblank) || (decide (k = 2) && vcountMatch s)) := by
  have hvblank := getLsbD_flag (vblankFlag s) (n := 0) (by omega) k
  rw [BitVec.shiftLeft_zero] at hvblank
  rw [dispstatRead16, BitVec.getLsbD_or, BitVec.getLsbD_or, BitVec.getLsbD_or, hvblank,
    getLsbD_flag s.hblank (by omega), getLsbD_flag (vcountMatch s) (by omega)]

theorem vcountMatch_iff (s : State) : vcountMatch s = true ↔ s.scanline.toNat = s.dispstatShadow.toNat / 256 := by
  have hlyc : ((lyc s).setWidth 16).toNat = s.dispstatShadow.toNat / 256 := by
    have := s.dispstatShadow.isLt
    rw [BitVec.toNat_setWidth, lyc, toNat_extract]
    omega
  rw [vcountMatch, beq_iff_eq, ← BitVec.toNat_inj, hlyc]

/-- A word with no bit in a low field has its bits there clear. -/
theorem getLsbD_of_extract_zero {n w : Nat} {x : BitVec n} (h : x.extractLsb' 0 w = 0) {k : Nat} (hk : k < w) :
    x.getLsbD k = false := by
  have := congrArg (·.getLsbD k) h
  simpa [BitVec.getLsbD_extractLsb', hk] using this

/-- Settles O41: the shadow has no bit where a flag stands, so each bit is one or the other. -/
theorem dispstatReadsFlagsOverStorage : Obligations.DispstatReadsFlagsOverStorage := by
  intro s h
  have h0 : s.dispstatShadow.getLsbD 0 = false := getLsbD_of_extract_zero h (by omega)
  have h1 : s.dispstatShadow.getLsbD 1 = false := getLsbD_of_extract_zero h (by omega)
  have h2 : s.dispstatShadow.getLsbD 2 = false := getLsbD_of_extract_zero h (by omega)
  simp only [read16_dispstat, getLsbD_dispstatRead16, h0, h1, h2]
  refine ⟨?_, ?_, ?_, fun k hk _ => ?_⟩
  · simp [vblankFlag]
  · simp
  · simp [vcountMatch_iff]
  · have h0 : k ≠ 0 := by omega
    have h1 : k ≠ 1 := by omega
    have h2 : k ≠ 2 := by omega
    simp [h0, h1, h2]

/-! ### VCOUNT (R75, R76) -/

theorem resolve_vcount (h : a = 0x04000006#32 ∨ a = 0x04000007#32) : resolve a = ⟨.io, 6⟩ ∨ resolve a = ⟨.io, 7⟩ := by
  rcases h with rfl | rfl <;> decide

/-- The halfword at VCOUNT's address is the scanline. -/
theorem read16_vcount (s : State) : read16 s 0x04000006#32 = s.scanline := by
  have h6 : resolve 0x04000006#32 = ⟨.io, 6⟩ := by decide
  have h7 : resolve (0x04000006#32 + 1#32) = ⟨.io, 7⟩ := by decide
  rw [read16, read8, read8, h6, h7]
  exact half_join s.scanline

/-- VCOUNT ignores a byte write. -/
theorem write8_vcount (s : State) (v : Byte) (h : a = 0x04000006#32 ∨ a = 0x04000007#32) : write8 s a v = s := by
  rcases resolve_vcount h with h | h <;> rw [write8, h] <;> rfl

/-- A byte of a halfword of a word is a byte of the word. -/
theorem extract_byte_of_half (w : Word) (lo : Nat) {k : Nat} (hk : k ≤ 8) :
    (w.extractLsb' lo 16).extractLsb' k 8 = w.extractLsb' (lo + k) 8 := by
  ext i hi
  have hlt : k + i < 16 := by omega
  simp [hlt, Nat.add_assoc]

/-- A word write is its low halfword and then its high one. -/
theorem write32_eq_write16 (s : State) (a w : Word) :
    write32 s a w = write16 (write16 s a (w.extractLsb' 0 16)) (a + 2#32) (w.extractLsb' 16 16) := by
  have hnext : a + 2#32 + 1#32 = a + 3#32 := BitVec.add_assoc ..
  simp only [write16, extract_byte_of_half, Nat.reduceLeDiff, hnext]
  rfl

theorem write16_vcount (s : State) (v : Half) : write16 s 0x04000006#32 v = s := by
  rw [write16, write8_vcount s _ (.inl rfl), write8_vcount s _ (.inr (by decide))]

/-- A word write at DISPSTAT drops its high halfword, which falls on VCOUNT (R76). -/
theorem write32_dispstat (s : State) (w : Word) :
    write32 s 0x04000004#32 w = write16 s 0x04000004#32 (w.extractLsb' 0 16) :=
  (write32_eq_write16 s _ w).trans (write16_vcount _ _)

/-- A word write at VCOUNT drops its low halfword (R76). -/
theorem write32_vcount (s : State) (w : Word) :
    write32 s 0x04000006#32 w = write16 s 0x04000008#32 (w.extractLsb' 16 16) := by
  have hnext : 0x04000006#32 + 2#32 = 0x04000008#32 := by decide
  rw [write32_eq_write16, hnext, write16_vcount]

/-- Settles O42: a word write is a halfword write of DISPSTAT and one that VCOUNT drops. -/
theorem dispstatWriteKeepsWritableBits : Obligations.DispstatWriteKeepsWritableBits := by
  intro s v w b
  exact ⟨write16_dispstat s v, (write32_dispstat s w).trans (write16_dispstat s _), by rw [write8_dispstatLow],
    by rw [write8_dispstatHigh]⟩

/-- Settles O43: VCOUNT reads the scanline, which no write touches. -/
theorem vcountIsReadOnly : Obligations.VcountIsReadOnly := by
  refine ⟨fun s v => read16_vcount _, fun s a v => write8_vcount s v, write16_vcount, fun s a b v w => ?_,
    fun s w => ⟨write32_dispstat s w, write32_vcount s w⟩, fun s => read16_vcount _⟩
  simp [read16_vcount]

/-! ### DISPCNT (R71) -/

/-- A halfword write touches memory and DISPSTAT's stored bits only. -/
theorem write16_frame (s : State) (a : Word) (v : Half) :
    RegsKeptBut s (write16 s a v) [] ∧ (write16 s a v).cpsr = s.cpsr ∧
      MemoryKeptOutside s (write16 s a v) [a, a + 1#32] ∧ SystemKept s (write16 s a v) :=
  ⟨fun r _ => by simp [readReg], by simp,
    fun x h => read8_write16_other s v (h _ (by simp)) (h _ (by simp)), by simp [SystemKept]⟩

/-- Settles O44: DISPCNT is two plain bytes. -/
theorem dispcntReadsBackAsWritten : Obligations.DispcntReadsBackAsWritten := fun s v =>
  ⟨read16_write16 s 0x04000000#32 v (by decide) (by decide), write16_frame s 0x04000000#32 v⟩

end Sys2Proof.Machine
end

section
/-! PROOFS. The statements of 30_encoding.md: the decoder and the encoder undo each other, the assembled immediates and
register lists, and the step as the decoded instruction. The decoder is taken through its list of rows: the row that
selects a word decodes it, whatever its place in the list, since no two rows select one word. -/

namespace Sys2Proof.Machine

/-! ### The opcode map as a list of rows (R103, R104, R108) -/

/-- Rows with differing fixed bits do not select one word. -/
theorem not_selects_of_disjoint {r q : OpcodeRow} {w : Half} (h : r.disjoint q = true) (hr : r.selects w = true) :
    ¬ q.selects w = true := by
  intro hq
  rw [OpcodeRow.selects, beq_iff_eq] at hr hq
  refine absurd ?_ (bne_iff_ne.mp h)
  rw [← hr, ← hq]
  ext i hi
  simp only [BitVec.getElem_and, BitVec.getElem_xor]
  cases w[i] <;> cases r.mask[i] <;> simp

/-- Among disjoint rows the one that selects the word decodes it. -/
theorem decodeIn_of_selects {rows : List OpcodeRow} (hd : rows.Pairwise (fun r q => r.disjoint q = true))
    {r : OpcodeRow} (hr : r ∈ rows) {w : Half} (hw : r.selects w = true) : decodeIn rows w = r.build w := by
  induction hd with
  | nil => cases hr
  | @cons q rest hq _ ih =>
    rw [decodeIn]
    cases hr with
    | head => exact if_pos hw
    | tail _ hr => rw [if_neg fun hqw => not_selects_of_disjoint (hq r hr) hqw hw, ih hr]

/-- Row `n` of the opcode map decodes the words with its fixed bits. -/
theorem decode_of_row (n : Fin 20) {w : Half} (hw : w &&& opcodeRows[n].mask = opcodeRows[n].value) :
    decode w = opcodeRows[n].build w :=
  decodeIn_of_selects opcodeRows_disjoint (List.getElem_mem n.isLt) (beq_iff_eq.mpr hw)

/-- A word is decoded by a row that selects it, or no row selects it and it is the fallback's. -/
theorem decodeIn_cases (rows : List OpcodeRow) (w : Half) :
    (∃ r ∈ rows, r.selects w = true ∧ decodeIn rows w = r.build w) ∨
    ((∀ r ∈ rows, r.selects w = false) ∧ decodeIn rows w = .fallback w) := by
  induction rows with
  | nil => exact .inr ⟨by simp, rfl⟩
  | cons q rest ih =>
    rw [decodeIn]
    by_cases hq : q.selects w = true
    · exact .inl ⟨q, by simp, hq, if_pos hq⟩
    · rw [if_neg hq]
      obtain ⟨r, hr, h⟩ | ⟨h, hf⟩ := ih
      · exact .inl ⟨r, List.mem_cons_of_mem _ hr, h⟩
      · exact .inr ⟨by simpa [hq] using h, hf⟩

/-- The ranges of R221 are what the rows of R108 leave. -/
theorem inFallbackSpace_iff (w : Half) :
    inFallbackSpace w = true ↔ ∀ r ∈ opcodeRows, r.selects w = false := by
  have hw := w.isLt
  simp only [inFallbackSpace, fallbackRanges, List.any_cons, List.any_nil, Bool.or_eq_true, Bool.and_eq_true,
    decide_eq_true_eq, opcodeRows, opcodeRows8, opcodeRows7, opcodeRows5, opcodeRows4, List.cons_append,
    List.nil_append, List.forall_mem_cons, List.not_mem_nil, false_imp_iff, implies_true, OpcodeRow.selects,
    beq_eq_false_iff_ne, Bool.false_eq_true, or_false, and_true]
  simp (disch := decide) only [ne_eq, BitVec.ofNat_eq_ofNat, and_top8_eq_iff, and_top7_eq_iff, and_top5_eq_iff,
    and_top4_eq_iff, BitVec.toNat_ofNat]
  constructor <;> omega

/-! ### Fields of a concatenation (R105) -/

theorem extract_second {m k n : Nat} (hi : BitVec m) (f : BitVec k) (a : BitVec n) :
    (hi ++ f ++ a).extractLsb' n k = f := by
  rw [BitVec.extractLsb'_append_eq_of_le (Nat.le_refl n), Nat.sub_self]
  exact BitVec.extractLsb'_append_eq_right

theorem extract_third {m k n l : Nat} (hi : BitVec m) (f : BitVec k) (a : BitVec n) (b : BitVec l) :
    (hi ++ f ++ a ++ b).extractLsb' (l + n) k = f := by
  rw [BitVec.extractLsb'_append_eq_of_le (Nat.le_add_right l n), Nat.add_sub_cancel_left]
  exact extract_second hi f a

theorem extract_fourth {m k n l j : Nat} (hi : BitVec m) (f : BitVec k) (a : BitVec n) (b : BitVec l)
    (c : BitVec j) : (hi ++ f ++ a ++ b ++ c).extractLsb' (j + (l + n)) k = f := by
  rw [BitVec.extractLsb'_append_eq_of_le (Nat.le_add_right j (l + n)), Nat.add_sub_cancel_left]
  exact extract_third hi f a b

/-! ### Each field is read as it was written (R105, R106) -/

theorem lowField_of_extract {w : Half} {lo : Nat} {r : LowReg} (h : w.extractLsb' lo 3 = lowBits r) :
    lowField w lo = r := congrArg BitVec.toFin h

theorem lowBits_lowField (w : Half) (lo : Nat) : lowBits (lowField w lo) = w.extractLsb' lo 3 := rfl

theorem hiField_of_extract {w : Half} {hi lo : Nat} {r : Reg} (hh : w.extractLsb' hi 1 = regHigh r)
    (hl : w.extractLsb' lo 3 = regBits r) : hiField w hi lo = r := by
  rw [hiField, hh, hl, regHigh, regBits, BitVec.extractLsb'_append_extractLsb'_eq_extractLsb' (by rfl)]
  exact congrArg BitVec.toFin BitVec.extractLsb'_eq_self

theorem regHigh_hiField (w : Half) (hi lo : Nat) : regHigh (hiField w hi lo) = w.extractLsb' hi 1 :=
  BitVec.extractLsb'_append_eq_left

theorem regBits_hiField (w : Half) (hi lo : Nat) : regBits (hiField w hi lo) = w.extractLsb' lo 3 :=
  BitVec.extractLsb'_append_eq_right

theorem bitField_getLsbD (w : Half) (k : Nat) : bitField (w.getLsbD k) = w.extractLsb' k 1 := by
  ext i hi
  obtain rfl : i = 0 := by omega
  simp [bitField]

theorem getLsbD_of_extract {w : Half} {k : Nat} {b : Bool} (h : w.extractLsb' k 1 = bitField b) :
    w.getLsbD k = b := by
  rw [← bitField_getLsbD] at h
  exact BitVec.ofBool_eq_iff_eq.mp h

theorem ofCode_code (c : Cond) : Cond.ofCode c.code = c := by cases c <;> rfl

theorem code_ofCode : ∀ c : BitVec 4, (Cond.ofCode c).code = c := by decide

/-! ### The formats of R105: an instruction rebuilt from the fields of its word -/

theorem build_hi (f : Reg → Reg → Instr) (op : BitVec 8) (rd rs : Reg) :
    f (hiField (op ++ regHigh rd ++ regHigh rs ++ regBits rs ++ regBits rd) 7 0)
      (hiField (op ++ regHigh rd ++ regHigh rs ++ regBits rs ++ regBits rd) 6 3) = f rd rs :=
  congrArg₂ f (hiField_of_extract (extract_fourth ..) BitVec.extractLsb'_append_eq_right)
    (hiField_of_extract (extract_third ..) (extract_second ..))

theorem build_addSubReg (f : LowReg → LowReg → LowReg → Instr) (op : BitVec 7) (rd rs rn : LowReg) :
    f (lowField (op ++ lowBits rn ++ lowBits rs ++ lowBits rd) 0)
      (lowField (op ++ lowBits rn ++ lowBits rs ++ lowBits rd) 3)
      (lowField (op ++ lowBits rn ++ lowBits rs ++ lowBits rd) 6) = f rd rs rn :=
  congr (congrArg₂ f (lowField_of_extract BitVec.extractLsb'_append_eq_right)
    (lowField_of_extract (extract_second ..))) (lowField_of_extract (extract_third ..))

theorem build_addSubImm (f : LowReg → LowReg → BitVec 3 → Instr) (op : BitVec 7) (rd rs : LowReg) (imm : BitVec 3) :
    f (lowField (op ++ imm ++ lowBits rs ++ lowBits rd) 0) (lowField (op ++ imm ++ lowBits rs ++ lowBits rd) 3)
      ((op ++ imm ++ lowBits rs ++ lowBits rd).extractLsb' 6 3) = f rd rs imm :=
  congr (congrArg₂ f (lowField_of_extract BitVec.extractLsb'_append_eq_right)
    (lowField_of_extract (extract_second ..))) (extract_third ..)

theorem build_imm5 (f : LowReg → LowReg → BitVec 5 → Instr) (op : BitVec 5) (rd rb : LowReg) (imm : BitVec 5) :
    f (lowField (op ++ imm ++ lowBits rb ++ lowBits rd) 0) (lowField (op ++ imm ++ lowBits rb ++ lowBits rd) 3)
      ((op ++ imm ++ lowBits rb ++ lowBits rd).extractLsb' 6 5) = f rd rb imm :=
  congr (congrArg₂ f (lowField_of_extract BitVec.extractLsb'_append_eq_right)
    (lowField_of_extract (extract_second ..))) (extract_third ..)

theorem build_imm8 (f : LowReg → BitVec 8 → Instr) (op : BitVec 5) (rd : LowReg) (imm : BitVec 8) :
    f (lowField (op ++ lowBits rd ++ imm) 8) ((op ++ lowBits rd ++ imm).extractLsb' 0 8) = f rd imm :=
  congrArg₂ f (lowField_of_extract (extract_second ..)) BitVec.extractLsb'_append_eq_right

theorem build_list (f : Bool → BitVec 8 → Instr) (op : BitVec 7) (r : Bool) (rlist : BitVec 8) :
    f (BitVec.getLsbD (op ++ bitField r ++ rlist) 8) ((op ++ bitField r ++ rlist).extractLsb' 0 8) = f r rlist :=
  congrArg₂ f (getLsbD_of_extract (extract_second ..)) BitVec.extractLsb'_append_eq_right

/-! ### Decoding an encoded instruction -/

/-- Row `n` decodes an instruction's word to the instruction, if the word has the row's fixed bits and its fields are
the operands. -/
theorem decode_encode_of_row {i : Instr} (n : Fin 20)
    (hrow : encode i &&& opcodeRows[n].mask = opcodeRows[n].value) (hbuild : opcodeRows[n].build (encode i) = i) :
    decode (encode i) = i :=
  (decode_of_row n hrow).trans hbuild

/-- A word of the fallback space is the fallback's. -/
theorem decode_of_inFallbackSpace {w : Half} (h : inFallbackSpace w = true) : decode w = .fallback w := by
  obtain ⟨r, hr, hsel, -⟩ | ⟨-, hdec⟩ := decodeIn_cases opcodeRows w
  · rw [(inFallbackSpace_iff w).mp h r hr] at hsel
    cases hsel
  · exact hdec

open Laws in
/-- Settles O1, instruction by instruction: the encoder writes the row's fixed bits, so that row decodes the word, and
its format's fields are read as they were written. -/
theorem decodeOfEncodeIsIdentity : Obligations.DecodeOfEncodeIsIdentity := by
  intro i h
  cases i with
  | addHi rd rs => exact decode_encode_of_row 0 (EncodeMatchesRow.addHi rd rs h) (build_hi ..)
  | cmpHi rd rs => exact decode_encode_of_row 1 (EncodeMatchesRow.cmpHi rd rs h) (build_hi ..)
  | movHi rd rs => exact decode_encode_of_row 2 (EncodeMatchesRow.movHi rd rs h) (build_hi ..)
  | bx rs =>
    exact decode_encode_of_row 3 (EncodeMatchesRow.bx rs h) (congrArg Instr.bx
      (hiField_of_extract (extract_third ..) (extract_second ..)))
  | addReg rd rs rn => exact decode_encode_of_row 4 (EncodeMatchesRow.addReg rd rs rn h) (build_addSubReg ..)
  | subReg rd rs rn => exact decode_encode_of_row 5 (EncodeMatchesRow.subReg rd rs rn h) (build_addSubReg ..)
  | addImm3 rd rs imm => exact decode_encode_of_row 6 (EncodeMatchesRow.addImm3 rd rs imm h) (build_addSubImm ..)
  | subImm3 rd rs imm => exact decode_encode_of_row 7 (EncodeMatchesRow.subImm3 rd rs imm h) (build_addSubImm ..)
  | push lr rlist => exact decode_encode_of_row 8 (EncodeMatchesRow.push lr rlist h) (build_list ..)
  | pop pc rlist => exact decode_encode_of_row 9 (EncodeMatchesRow.pop pc rlist h) (build_list ..)
  | movImm8 rd imm => exact decode_encode_of_row 10 (EncodeMatchesRow.movImm8 rd imm h) (build_imm8 ..)
  | addImm8 rd imm => exact decode_encode_of_row 11 (EncodeMatchesRow.addImm8 rd imm h) (build_imm8 ..)
  | subImm8 rd imm => exact decode_encode_of_row 12 (EncodeMatchesRow.subImm8 rd imm h) (build_imm8 ..)
  | ldrPc rd imm => exact decode_encode_of_row 13 (EncodeMatchesRow.ldrPc rd imm h) (build_imm8 ..)
  | strImm5 rd rb imm => exact decode_encode_of_row 14 (EncodeMatchesRow.strImm5 rd rb imm h) (build_imm5 ..)
  | ldrImm5 rd rb imm => exact decode_encode_of_row 15 (EncodeMatchesRow.ldrImm5 rd rb imm h) (build_imm5 ..)
  | strbImm5 rd rb imm => exact decode_encode_of_row 16 (EncodeMatchesRow.strbImm5 rd rb imm h) (build_imm5 ..)
  | ldrbImm5 rd rb imm => exact decode_encode_of_row 17 (EncodeMatchesRow.ldrbImm5 rd rb imm h) (build_imm5 ..)
  | b imm =>
    exact decode_encode_of_row 18 (EncodeMatchesRow.b imm h) (congrArg Instr.b BitVec.extractLsb'_append_eq_right)
  | bcond cond imm =>
    exact decode_encode_of_row 19 (EncodeMatchesRow.bcond cond imm h) (congrArg₂ Instr.bcond
      ((congrArg Cond.ofCode (extract_second ..)).trans (ofCode_code cond)) BitVec.extractLsb'_append_eq_right)
  | fallback word => exact decode_of_inFallbackSpace h

/-! ### Encoding a decoded word -/

/-- A row's instruction, built from a word the row selects, is encoded as the word: its fixed bits, then its fields. The
ignored bits of BX (R161) are said apart, in `encode_decode_bx`. -/
theorem encode_build {w : Half} (hbx : w &&& 0xFF00#16 ≠ 0x4700#16) :
    ∀ r ∈ opcodeRows, w &&& r.mask = r.value → encode (r.build w) = w := by
  simp only [opcodeRows, opcodeRows8, opcodeRows7, opcodeRows5, opcodeRows4, List.cons_append, List.nil_append,
    List.forall_mem_cons, List.not_mem_nil, false_imp_iff, implies_true, and_true]
  simp (disch := decide) only [ne_eq, BitVec.ofNat_eq_ofNat, and_top8_eq_iff, and_top7_eq_iff, and_top5_eq_iff,
    and_top4_eq_iff] at hbx ⊢
  simp only [encode, lowBits_lowField, regHigh_hiField, regBits_hiField, bitField_getLsbD, code_ofCode,
    ← BitVec.toNat_inj, toNat_append, toNat_extract, BitVec.toNat_ofNat] at hbx ⊢
  and_intros <;> omega

theorem wellFormed_build (w : Half) : ∀ r ∈ opcodeRows, (r.build w).wellFormed = true := by
  simp [opcodeRows, opcodeRows8, opcodeRows7, opcodeRows5, opcodeRows4, Instr.wellFormed]

theorem wellFormed_decode (w : Half) : (decode w).wellFormed = true := by
  obtain ⟨r, hr, -, hdec⟩ | ⟨hnone, hdec⟩ := decodeIn_cases opcodeRows w <;> rw [decode, hdec]
  · exact wellFormed_build w r hr
  · exact (inFallbackSpace_iff w).mpr hnone

theorem encode_decode {w : Half} (hbx : w &&& 0xFF00#16 ≠ 0x4700#16) : encode (decode w) = w := by
  obtain ⟨r, hr, hsel, hdec⟩ | ⟨-, hdec⟩ := decodeIn_cases opcodeRows w <;> rw [decode, hdec]
  · exact encode_build hbx r hr (beq_iff_eq.mp hsel)
  · rfl

/-- The mask 0xFF78 clears bit 7 and bits 2 to 0. -/
theorem append_and_bxMask (a : BitVec 8) (b c : BitVec 1) (d e : BitVec 3) :
    (a ++ b ++ c ++ d ++ e) &&& 0xFF78#16 = a ++ 0#1 ++ c ++ d ++ 0#3 := by
  have hmask : 0xFF78#16 = BitVec.allOnes 8 ++ 0#1 ++ BitVec.allOnes 1 ++ BitVec.allOnes 3 ++ 0#3 := by decide
  have hfields : (a ++ b ++ c ++ d ++ e) &&&
      (BitVec.allOnes 8 ++ 0#1 ++ BitVec.allOnes 1 ++ BitVec.allOnes 3 ++ 0#3) = a ++ 0#1 ++ c ++ d ++ 0#3 := by
    simp only [BitVec.and_append, BitVec.and_allOnes, BitVec.and_zero]
  exact hmask ▸ hfields

/-- A BX word comes back with the bits BX ignores as 0 (R161). -/
theorem encode_decode_bx {w : Half} (hbx : w &&& 0xFF00#16 = 0x4700#16) : encode (decode w) = w &&& 0xFF78#16 := by
  have hdec : decode w = .bx (hiField w 6 3) := decode_of_row 3 hbx
  have hw : w = 0x47#8 ++ w.extractLsb' 7 1 ++ w.extractLsb' 6 1 ++ w.extractLsb' 3 3 ++ w.extractLsb' 0 3 := by
    rw [and_top8_eq_iff _ _ rfl] at hbx
    simp only [← BitVec.toNat_inj, toNat_append, toNat_extract, BitVec.toNat_ofNat] at hbx ⊢
    omega
  calc encode (decode w) = 0x47#8 ++ 0#1 ++ w.extractLsb' 6 1 ++ w.extractLsb' 3 3 ++ 0#3 := by
        rw [hdec, encode, regHigh_hiField, regBits_hiField]
    _ = w &&& 0xFF78#16 := by
        conv_rhs => rw [hw]
        exact (append_and_bxMask ..).symm

/-- Settles O2: a BX word loses its ignored bits, and every other word is its row's fixed bits and fields. -/
theorem encodeOfDecodeIsIdentity : Obligations.EncodeOfDecodeIsIdentity := by
  intro w
  refine ⟨wellFormed_decode w, ?_⟩
  split
  next hbx => exact encode_decode_bx hbx
  next hbx => exact encode_decode hbx

/-! ### Immediates (R107) -/

theorem zextImm_toNat {n : Nat} (hn : n ≤ 32) (imm : BitVec n) : (zextImm imm).toNat = imm.toNat :=
  BitVec.toNat_setWidth_of_le hn

theorem zextImm_shiftLeft_two {n : Nat} (hn : n ≤ 30) (imm : BitVec n) :
    zextImm imm <<< 2 = BitVec.ofNat 32 (4 * imm.toNat) := by
  rw [← BitVec.toNat_inj, BitVec.toNat_shiftLeft, zextImm_toNat (by omega), BitVec.toNat_ofNat, Nat.shiftLeft_eq,
    Nat.mul_comm]

theorem wordOffset_toNat (imm : BitVec 5) : (wordOffset imm).toNat = 4 * imm.toNat := by
  rw [wordOffset, zextImm_shiftLeft_two (by decide), BitVec.toNat_ofNat]
  omega

theorem bOffset_toInt (imm : BitVec 11) : (bOffset imm).toInt = 2 * imm.toInt := by
  rw [bOffset, BitVec.toInt_signExtend_of_le (by decide), BitVec.toInt_append]
  simp

theorem bcondOffset_toInt (imm : BitVec 8) : (bcondOffset imm).toInt = 2 * imm.toInt := by
  have hsext : (imm.signExtend 32).toInt = imm.toInt := BitVec.toInt_signExtend_of_le (by decide)
  have hlo := imm.le_toInt
  have hhi := imm.toInt_lt
  rw [bcondOffset, BitVec.toInt_shiftLeft]
  rw [BitVec.toInt_eq_toNat_cond] at hsext
  simp only [Nat.shiftLeft_eq, Int.bmod_def]
  omega

/-! ### Register lists (R107, R170, R171) -/

theorem mem_regList (rlist : BitVec 8) (r : Reg) :
    r ∈ regList rlist ↔ r.val < 8 ∧ rlist.getLsbD r.val = true := by
  have hall : ∀ x : LowReg, x ∈ ([0, 1, 2, 3, 4, 5, 6, 7] : List LowReg) := by decide
  simp only [regList, List.mem_map, List.mem_filter, hall, true_and]
  constructor
  · rintro ⟨x, hx, rfl⟩
    exact ⟨x.isLt, hx⟩
  · rintro ⟨hr, hx⟩
    exact ⟨⟨r.val, hr⟩, hx, rfl⟩

theorem mem_pushList (lr : Bool) (rlist : BitVec 8) (r : Reg) :
    r ∈ pushList lr rlist ↔ (r.val < 8 ∧ rlist.getLsbD r.val = true) ∨ (r = lrReg ∧ lr = true) := by
  rw [pushList, List.mem_append, mem_regList]
  cases lr <;> simp

theorem regList_ascending (rlist : BitVec 8) : (regList rlist).Pairwise (fun a b => a.val < b.val) := by
  rw [regList, List.pairwise_map]
  exact List.Pairwise.filter _ (by decide)

theorem pushList_ascending (lr : Bool) (rlist : BitVec 8) :
    (pushList lr rlist).Pairwise (fun a b => a.val < b.val) := by
  refine List.pairwise_append.mpr ⟨regList_ascending rlist, by cases lr <;> simp, fun a ha b hb => ?_⟩
  have hb : b = lrReg := by
    cases lr with
    | false => cases hb
    | true => exact List.mem_singleton.mp hb
  rw [hb]
  exact Nat.lt_trans (regList_lt ha) (by decide)

theorem regList_length (rlist : BitVec 8) :
    (regList rlist).length = (List.range 8).countP (fun i => rlist.getLsbD i) := by
  have hrange : List.range 8 = ([0, 1, 2, 3, 4, 5, 6, 7] : List LowReg).map Fin.val := by decide
  rw [hrange, List.countP_map, regList, List.length_map, List.countP_eq_length_filter]
  rfl

theorem pushList_length (lr : Bool) (rlist : BitVec 8) :
    (pushList lr rlist).length = (List.range 8).countP (fun i => rlist.getLsbD i) + lr.toNat := by
  rw [pushList, List.length_append, regList_length]
  cases lr <;> rfl

/-- Settles O5: the immediates as numbers, then what the two lists hold, their order and their length. -/
theorem immediatesHaveTheirAssembledValues : Obligations.ImmediatesHaveTheirAssembledValues :=
  ⟨zextImm_toNat (by decide), zextImm_toNat (by decide),
    fun imm => ⟨wordOffset_toNat imm, zextImm_toNat (by decide) imm⟩,
    fun s imm => congrArg (alignWord (pc s + 2#32) + ·) (zextImm_shiftLeft_two (by decide) imm),
    bOffset_toInt, bcondOffset_toInt, mem_regList, fun lr rlist =>
    ⟨pushList_ascending lr rlist, regList_ascending rlist, pushList_length lr rlist, mem_pushList lr rlist⟩⟩

/-! ### The step cycle (R100) -/

/-- The two bytes at PC decode to what the decoder makes of the fetched halfword (R66, R102). -/
theorem decodeBytes_fetch (s : State) :
    decodeBytes [read8 s (pc s), read8 s (pc s + 1#32)] = .ok (decode (fetch s), []) := rfl

/-- Settles O45: the guard passes, and the two bytes are the fetched halfword. -/
theorem stepRunsTheDecodedInstruction : Obligations.StepRunsTheDecodedInstruction := by
  intro s i hrun hdec
  rw [decodeBytes_fetch] at hdec
  cases hdec
  rw [step, stepGuard_runnable hrun]
  rfl

end Sys2Proof.Machine
end

section
/-! PROOFS. The statements of 40_dataproc.md: the flags of additions and subtractions, by signs and as integer laws, and
what each data-processing instruction gives and leaves. The instructions go through the effect lemma of the shared
operation each is made of. -/

namespace Sys2Proof.Machine

/-! ### The ALU (R130, R131) -/

/-- V of an addition: operands of one sign, and a result of the other. -/
theorem addWithFlags_v_iff_signs (a b : Word) :
    (addWithFlags a b).v = true ↔ a.msb = b.msb ∧ (a + b).msb ≠ a.msb := by
  simp only [addWithFlags, BitVec.msb_and, BitVec.msb_not, BitVec.msb_xor]
  cases a.msb <;> cases b.msb <;> simp

/-- V of a subtraction: operands of different signs, and a result without the minuend's. -/
theorem subWithFlags_v_iff_signs (a b : Word) :
    (subWithFlags a b).v = true ↔ a.msb ≠ b.msb ∧ (a - b).msb ≠ a.msb := by
  simp only [subWithFlags, BitVec.msb_and, BitVec.msb_xor]
  cases a.msb <;> cases b.msb <;> simp

theorem addWithFlags_c_iff (a b : Word) : (addWithFlags a b).c = true ↔ 2 ^ 32 ≤ a.toNat + b.toNat :=
  decide_eq_true_iff

theorem subWithFlags_c_iff (a b : Word) : (subWithFlags a b).c = true ↔ b.toNat ≤ a.toNat :=
  decide_eq_true_iff

/-- Settles O6: V by signs; the other fields are the definition's. -/
theorem addFlagsFollowCarryAndSigns : Obligations.AddFlagsFollowCarryAndSigns := fun a b => by
  simp only [← BitVec.msb_eq_getLsbD_last (w := 32)]
  exact ⟨BitVec.toNat_add a b, rfl, beq_iff_eq, addWithFlags_c_iff a b, rfl, addWithFlags_v_iff_signs a b⟩

/-- Settles O7: V by signs; the other fields are the definition's. -/
theorem subFlagsFollowBorrowAndSigns : Obligations.SubFlagsFollowBorrowAndSigns := fun a b => by
  simp only [← BitVec.msb_eq_getLsbD_last (w := 32), Nat.add_comm a.toNat]
  exact ⟨BitVec.toNat_sub a b, rfl, beq_iff_eq, subWithFlags_c_iff a b, rfl, subWithFlags_v_iff_signs a b⟩

/-! ### The integer laws (R133) -/

/-- V of an addition is the library's signed overflow. -/
theorem addWithFlags_v_eq_saddOverflow (a b : Word) : (addWithFlags a b).v = a.saddOverflow b := by
  rw [Bool.eq_iff_iff, addWithFlags_v_iff_signs, BitVec.saddOverflow_eq]
  simp

/-- V of a subtraction is the library's signed overflow. -/
theorem subWithFlags_v_eq_ssubOverflow (a b : Word) : (subWithFlags a b).v = a.ssubOverflow b := by
  rw [Bool.eq_iff_iff, subWithFlags_v_iff_signs, BitVec.ssubOverflow_eq]
  cases a.msb <;> cases b.msb <;> simp

theorem addWithFlags_v_iff_toInt (a b : Word) :
    (addWithFlags a b).v = true ↔ a.toInt + b.toInt < -2 ^ 31 ∨ 2 ^ 31 ≤ a.toInt + b.toInt := by
  rw [addWithFlags_v_eq_saddOverflow, or_comm]
  simp [BitVec.saddOverflow]

theorem subWithFlags_v_iff_toInt (a b : Word) :
    (subWithFlags a b).v = true ↔ a.toInt - b.toInt < -2 ^ 31 ∨ 2 ^ 31 ≤ a.toInt - b.toInt := by
  rw [subWithFlags_v_eq_ssubOverflow, or_comm]
  simp [BitVec.ssubOverflow]

/-- Settles O8: V is the library's signed overflow, and C of a subtraction is clear exactly on a borrow. -/
theorem overflowFlagIsSignedOverflow : Obligations.OverflowFlagIsSignedOverflow := fun a b =>
  ⟨addWithFlags_v_iff_toInt a b, subWithFlags_v_iff_toInt a b, addWithFlags_c_iff a b, subWithFlags_c_iff a b,
    (subWithFlags_c_iff a 0).mpr (Nat.zero_le _), fun h =>
    Bool.eq_false_iff.mpr (mt (subWithFlags_c_iff a b).mp (Nat.not_le_of_lt h))⟩

/-! ### The flag setters (R132) -/

theorem setNZ_effect (s : State) (r : Word) :
    NzAre s (setNZ s r) r ∧ RegsKeptBut s (setNZ s r) [] ∧ MemoryKept s (setNZ s r) ∧ SystemKept s (setNZ s r) :=
  ⟨⟨BitVec.msb_eq_getLsbD_last r, beq_iff_eq, rfl, rfl, rfl⟩, fun _ _ => rfl, ⟨fun _ => rfl, rfl, rfl⟩,
    ⟨rfl, rfl, rfl, rfl, rfl, rfl⟩⟩

theorem setNZCV_effect (s : State) (a : AluResult) :
    FlagsAre s (setNZCV s a) a ∧ RegsKeptBut s (setNZCV s a) [] ∧ MemoryKept s (setNZCV s a) ∧
      SystemKept s (setNZCV s a) :=
  ⟨⟨rfl, rfl, rfl, rfl, rfl⟩, fun _ _ => rfl, ⟨fun _ => rfl, rfl, rfl⟩, ⟨rfl, rfl, rfl, rfl, rfl, rfl⟩⟩

theorem Cpsr.eq_of_flags_eq {f g : Cpsr} (hn : f.n = g.n) (hz : f.z = g.z) (hc : f.c = g.c) (hv : f.v = g.v)
    (ht : f.t = g.t) : f = g := by
  cases f
  cases g
  simp_all only

/-- An instruction that R28 lists for no flag leaves the whole CPSR. -/
theorem exec_cpsr_of_flagless {i : Instr} {s t : State} (hi : i.flagWrites = ⟨false, false, false⟩)
    (h : exec i s = .next t) : t.cpsr = s.cpsr := by
  have heffect : Effect s ⟨false, false, false⟩ t := hi ▸ exec_effect h
  obtain ⟨hnz, hcv, ht⟩ := heffect.flags_kept
  obtain ⟨hn, hz⟩ := hnz rfl
  obtain ⟨hc, hv⟩ := hcv rfl
  exact Cpsr.eq_of_flags_eq hn hz hc hv (ht rfl)

/-- Settles O9: each setter's effect, and for a flagless instruction the flags every effect keeps. -/
theorem flagSettersWriteOnlyTheirFlags : Obligations.FlagSettersWriteOnlyTheirFlags :=
  ⟨setNZ_effect, setNZCV_effect, fun _ _ _ => exec_cpsr_of_flagless⟩

/-! ### Immediate and three-operand forms (R134 to R140) -/

theorem zextImm_eq_zero_iff {n : Nat} (hn : n ≤ 32) (imm : BitVec n) : zextImm imm = 0 ↔ imm = 0 := by
  rw [← BitVec.toNat_inj, ← BitVec.toNat_inj, zextImm_toNat hn]
  simp

/-- An immediate narrower than a word is not negative. -/
theorem zextImm_bit31 {n : Nat} (hn : n ≤ 31) (imm : BitVec n) : (zextImm imm).getLsbD 31 = false := by
  rw [zextImm, BitVec.getLsbD_setWidth, BitVec.getLsbD_of_ge imm 31 hn, Bool.and_false]

/-- Settles O11: the effect of the register write with N and Z, on an 8-bit value. -/
theorem movImmediateResult : Obligations.MovImmediateResult := by
  intro rd imm s
  obtain ⟨honly, hflags⟩ := writeNZ_effect s rd (zextImm imm)
  have ⟨hn, hz, _⟩ := hflags
  exact ⟨_, rfl, honly, hflags, hn.trans (zextImm_bit31 (by decide) imm),
    hz.trans (zextImm_eq_zero_iff (by decide) imm)⟩

/-- Settles O12, by the effect the arithmetic instructions share. -/
theorem addSubImmediateResult : Obligations.AddSubImmediateResult := fun rd _ s =>
  ⟨⟨_, rfl, writeAlu_effect s rd _⟩, ⟨_, rfl, writeAlu_effect s rd _⟩⟩

/-- Settles O13, by the effect the arithmetic instructions share; the ALU's result is of the state before the write. -/
theorem addSubRegisterResult : Obligations.AddSubRegisterResult := fun rd _ _ s =>
  ⟨⟨_, rfl, writeAlu_effect s rd _⟩, ⟨_, rfl, writeAlu_effect s rd _⟩⟩

/-- Settles O14, by the effect the arithmetic instructions share. -/
theorem addSubImm3Result : Obligations.AddSubImm3Result := fun rd _ _ s =>
  ⟨⟨_, rfl, writeAlu_effect s rd _⟩, ⟨_, rfl, writeAlu_effect s rd _⟩⟩

/-! ### High registers (R141 to R144) -/

theorem hiValue_of_ne_pc (s : State) {d : Reg} (v : Word) (hd : d ≠ pcReg) : hiValue s d v = v :=
  if_neg fun h => hd h.1

theorem hiValue_of_raw {s : State} (d : Reg) (v : Word) (hc : s.config.hiPcWrite = .raw) : hiValue s d v = v := by
  simp [hiValue, hc]

theorem hiValue_pc_of_clearBit0 {s : State} (v : Word) (hc : s.config.hiPcWrite = .clearBit0) :
    hiValue s pcReg v = v &&& 0xFFFFFFFE#32 :=
  if_pos ⟨rfl, hc⟩

/-- HiWrite with its value spelt out by destination and parameter, and its frame. -/
theorem hiWrite_result (s : State) (d : Reg) (v : Word) :
    (hiWrite s d v).cpsr = s.cpsr ∧ RegsKeptBut s (hiWrite s d v) [d] ∧ MemoryKept s (hiWrite s d v) ∧
      SystemKept s (hiWrite s d v) ∧ (d ≠ pcReg → readReg (hiWrite s d v) d = v) ∧
      (d = pcReg → s.config.hiPcWrite = .raw → pc (hiWrite s d v) = v) ∧
      (d = pcReg → s.config.hiPcWrite = .clearBit0 → pc (hiWrite s d v) = v &&& 0xFFFFFFFE#32) := by
  obtain ⟨⟨hvalue, hregs, hmem, hsys⟩, hcpsr⟩ := hiWrite_effect s d v
  refine ⟨hcpsr, hregs, hmem, hsys, fun hd => hvalue.trans (hiValue_of_ne_pc s v hd), ?_, ?_⟩
  · rintro rfl hc
    exact hvalue.trans (hiValue_of_raw pcReg v hc)
  · rintro rfl hc
    exact hvalue.trans (hiValue_pc_of_clearBit0 v hc)

/-- Settles O15: HiWrite of the sum and of the source; with r15 as the destination its old value is the post-fetch PC. -/
theorem highRegisterAddMovResult : Obligations.HighRegisterAddMovResult := by
  intro d r s
  refine ⟨?_, _, rfl, hiWrite_result s d (readReg s r)⟩
  obtain ⟨hcpsr, hregs, hmem, hsys, hother, hraw, hclear⟩ := hiWrite_result s d (readReg s d + readReg s r)
  refine ⟨_, rfl, hcpsr, hregs, hmem, hsys, hother, ?_, ?_⟩
  · rintro rfl
    exact hraw rfl
  · rintro rfl
    exact hclear rfl

theorem subWithFlags_self (a : Word) : subWithFlags a a = ⟨0, false, true, true, false⟩ := by
  simp [subWithFlags]

/-- Settles O16: the effect of the flag setter, and a register less itself. -/
theorem highRegisterCompareResult : Obligations.HighRegisterCompareResult := by
  intro d r s
  obtain ⟨hflags, hregs, hmem, hsys⟩ := setNZCV_effect s (subWithFlags (readReg s d) (readReg s r))
  refine ⟨_, rfl, hflags, hregs, hmem, hsys, ?_⟩
  rintro rfl
  rw [subWithFlags_self]
  exact ⟨rfl, rfl, rfl, rfl⟩

end Sys2Proof.Machine
end

section
/-! PROOFS. The statement of 41_bx.md: the target of the state-switching branch as a number, and BX as that branch with
its frame. -/

namespace Sys2Proof.Machine

/-! ### Words with their low bits cleared -/

/-- Clearing the bits below `lo` rounds down to a multiple of `2 ^ lo`. -/
theorem toNat_and_allOnes_shiftLeft {n : Nat} (x : BitVec n) (lo : Nat) :
    (x &&& (BitVec.allOnes n <<< lo)).toNat = x.toNat - x.toNat % 2 ^ lo := by
  have hround : x.toNat / 2 ^ lo * 2 ^ lo = x.toNat - x.toNat % 2 ^ lo := by
    rw [Nat.mul_comm, Nat.mul_div_self_eq_mod_sub_self]
  have hlt : x.toNat / 2 ^ lo * 2 ^ lo < 2 ^ n := Nat.lt_of_le_of_lt (Nat.div_mul_le_self ..) x.isLt
  rw [← BitVec.shiftLeft_ushiftRight, BitVec.toNat_shiftLeft, BitVec.toNat_ushiftRight, Nat.shiftLeft_eq,
    Nat.shiftRight_eq_div_pow, Nat.mod_eq_of_lt hlt, hround]

theorem toNat_and_clearBit0 (v : Word) : (v &&& 0xFFFFFFFE#32).toNat = v.toNat - v.toNat % 2 :=
  toNat_and_allOnes_shiftLeft v 1

theorem toNat_alignWord (v : Word) : (alignWord v).toNat = v.toNat - v.toNat % 4 :=
  toNat_and_allOnes_shiftLeft v 2

theorem getLsbD_zero_iff_odd {n : Nat} (x : BitVec n) : x.getLsbD 0 = true ↔ x.toNat % 2 = 1 := by
  rw [BitVec.getLsbD, Nat.testBit_zero, decide_eq_true_iff]

/-! ### The state-switching branch (R160) -/

theorem toNat_pc_interworkBranch_of_odd (s : State) {v : Word} (h : v.toNat % 2 = 1) :
    (pc (interworkBranch s v)).toNat = v.toNat - 1 := by
  rw [pc, readReg_interworkBranch, if_pos rfl, if_pos ((getLsbD_zero_iff_odd v).mpr h), toNat_and_clearBit0, h]

theorem toNat_pc_interworkBranch_of_even (s : State) {v : Word} (h : v.toNat % 2 = 0) :
    (pc (interworkBranch s v)).toNat = v.toNat - v.toNat % 4 := by
  have hbit : ¬ v.getLsbD 0 = true := by
    rw [getLsbD_zero_iff_odd, h]
    decide
  rw [pc, readReg_interworkBranch, if_pos rfl, if_neg hbit]
  exact toNat_alignWord v

/-! ### BX (R161) -/

/-- Settles O17: the state-switching branch to the register's value, by the parity of its target, with its frame. -/
theorem branchExchangeResult : Obligations.BranchExchangeResult := by
  intro r s
  obtain ⟨hregs, hflags, hmem, hsys⟩ := interworkBranch_frame s (readReg s r)
  exact ⟨_, rfl, interworkBranch_t .., toNat_pc_interworkBranch_of_odd s, toNat_pc_interworkBranch_of_even s,
    hflags, hregs, hmem, hsys⟩

end Sys2Proof.Machine
end

section
/-! PROOFS. The statements of 42_stack.md: PUSH as a run of stores below SP, POP as a run of loads above it, the two as
inverses where the stack is plain storage, and the instructions that write SP. -/

namespace Sys2Proof.Machine

/-! ### The listed registers: none is SP or PC, and there are at most nine -/

theorem spReg_notMem_pushList (lr : Bool) (rlist : BitVec 8) : spReg ∉ pushList lr rlist := by
  rw [mem_pushList]
  rintro (⟨hlt, -⟩ | ⟨heq, -⟩)
  · exact absurd hlt (by decide)
  · exact absurd heq (by decide)

theorem spReg_notMem_regList (rlist : BitVec 8) : spReg ∉ regList rlist := fun h =>
  absurd (regList_lt h) (by decide)

@[simp] theorem pushList_false (rlist : BitVec 8) : pushList false rlist = regList rlist := List.append_nil _

theorem pushList_length_le (lr : Bool) (rlist : BitVec 8) : (pushList lr rlist).length ≤ 9 := by
  rw [pushList_length]
  exact Nat.add_le_add List.countP_le_length lr.toNat_le

/-! ### PUSH (R170) -/

/-- Settles O20: the run of stores with SP already down; no pushed register is SP, so each still has its old value. -/
theorem pushResult : Obligations.PushResult := by
  intro lr rlist s
  refine ⟨_, rfl, by simp [sp], rfl, ?_, ?_, ?_, by simp, exec_systemKept (i := .push lr rlist) rfl⟩
  · intro k j hk hj hplain
    have hlen := pushList_length_le lr rlist
    have hne := ne_of_mem_of_not_mem (List.getElem_mem hk) (spReg_notMem_pushList lr rlist)
    rw [read8_storeRegs_byte _ _ hk hj (by omega) hplain, readReg_writeReg_ne _ _ hne]
  · exact fun a ha => read8_storeRegs_other _ _ _ a ha
  · intro r hr
    rw [readReg_storeRegs, readReg_writeReg_ne _ _ (List.ne_of_not_mem_cons hr)]

/-! ### POP (R171) -/

theorem cursorAfter_succ (a : Word) (n : Nat) : cursorAfter a n + 4#32 = cursorAfter a (n + 1) := by
  rw [cursorAfter, cursorAfter, BitVec.add_assoc, ← BitVec.ofNat_add, Nat.mul_succ]

/-- POP changes no byte of memory: it is none of the three instructions that store. -/
theorem pop_memoryKept {pcBit : Bool} {rlist : BitVec 8} {s t : State} (h : exec (.pop pcBit rlist) s = .next t) :
    MemoryKept s t :=
  onlyStoresChangeMemory _ s t h nofun nofun nofun

/-- Settles O21: the run of loads, then SP, which is not among the loaded registers. -/
theorem popRegistersResult : Obligations.PopRegistersResult := by
  intro rlist s
  refine ⟨_, rfl, ?_, readReg_writeReg_same .., ?_, by simp, pop_memoryKept (pcBit := false) rfl,
    exec_systemKept (i := .pop false rlist) rfl⟩
  · intro k hk
    have hne := ne_of_mem_of_not_mem (List.getElem_mem hk) (spReg_notMem_regList rlist)
    rw [readReg_writeReg_ne _ _ hne, readReg_loadRegs_get _ (regList_nodup rlist)]
  · intro r hr
    obtain ⟨hsp, hlist⟩ := List.ne_and_not_mem_of_not_mem_cons hr
    rw [readReg_writeReg_ne _ _ hsp, readReg_loadRegs_ne _ _ hlist]

/-- A register other than SP and PC after the last two writes of a POP with PC. -/
theorem readReg_writeSp_interworkBranch (s : State) (target cursor : Word) {r : Reg} (hsp : r ≠ spReg)
    (hpc : r ≠ pcReg) : readReg (writeReg (interworkBranch s target) spReg cursor) r = readReg s r := by
  rw [readReg_writeReg_ne _ _ hsp, readReg_interworkBranch, if_neg hpc]

/-- Settles O22: the run of loads, the state-switching branch to the next word, then SP past that word. -/
theorem popProgramCounterResult : Obligations.PopProgramCounterResult := by
  intro rlist s
  refine ⟨_, rfl, ?_, ?_, ⟨?_, ?_⟩, ?_, by simp [NzcvKept], pop_memoryKept (pcBit := true) rfl,
    exec_systemKept (i := .pop true rlist) rfl⟩
  · intro k hk
    have hsp := ne_of_mem_of_not_mem (List.getElem_mem hk) (spReg_notMem_regList rlist)
    have hpc := ne_of_mem_of_not_mem (List.getElem_mem hk) (pcReg_notMem_regList rlist)
    rw [readReg_writeSp_interworkBranch _ _ _ hsp hpc, readReg_loadRegs_get _ (regList_nodup rlist)]
  · rw [sp, readReg_writeReg_same, cursorAfter_succ]
    rfl
  · rw [writeReg_cpsr, interworkBranch_t, read32_loadRegs]
    rfl
  · rw [pc_writeReg_ne _ (by decide), pc, readReg_interworkBranch, if_pos rfl, read32_loadRegs]
    rfl
  · intro r hr
    obtain ⟨hsp, hr⟩ := List.ne_and_not_mem_of_not_mem_cons hr
    obtain ⟨hpc, hlist⟩ := List.ne_and_not_mem_of_not_mem_cons hr
    rw [readReg_writeSp_interworkBranch _ _ _ hsp hpc, readReg_loadRegs_ne _ _ hlist]

/-! ### POP after PUSH -/

/-- A word read is the word whose four bytes stand there (R53). -/
theorem read32_eq_of_bytes {s : State} {a v : Word}
    (h : ∀ j, j < 4 → read8 s (a + BitVec.ofNat 32 j) = byteOf v j) : read32 s a = v := by
  have h0 : read8 s a = byteOf v 0 := by simpa using h 0 (by decide)
  rw [read32, h 3 (by decide), h 2 (by decide), h 1 (by decide), h0]
  exact bytes_join v

/-- Settles O23: each register popped is a word whose bytes PUSH stored, SP comes back up by what it went down, and no
other register moves. -/
theorem popUndoesPush : Obligations.PopUndoesPush := by
  intro rlist s hplain
  obtain ⟨t, ht, hspt, hbase, hbytes, -, hregst, hcpsrt, -⟩ := pushResult false rlist s
  obtain ⟨u, hu, hwords, hspu, hregsu, hcpsru, -, -⟩ := popRegistersResult rlist t
  simp only [pushList_false] at hbase hbytes
  refine ⟨t, u, ht, hu, fun r _ => ?_, hcpsru.trans hcpsrt⟩
  by_cases hsp : r = spReg
  · subst hsp
    calc sp u = sp s - _ + _ := by rw [hspu, hspt, hbase]
      _ = sp s := BitVec.sub_add_cancel ..
  · by_cases hlist : r ∈ regList rlist
    · obtain ⟨k, hk, rfl⟩ := List.getElem_of_mem hlist
      rw [hwords k hk, hspt]
      refine read32_eq_of_bytes fun j hj => ?_
      rw [BitVec.add_assoc, ← BitVec.ofNat_add]
      exact hbytes k j hk hj (hplain _ (by omega))
    · rw [hregsu r (by simp [hsp, hlist]), hregst r (by simp [hsp])]

/-! ### Which instructions write SP (R172) -/

theorem RegsKeptBut.sp_eq {s t : State} {rs : List Reg} (h : RegsKeptBut s t rs) (hsp : spReg ∉ rs) : sp t = sp s :=
  h spReg hsp

/-- An instruction whose one written register is not SP leaves SP. -/
theorem OnlyRegister.sp_eq {s t : State} {rd : Reg} {v : Word} (h : OnlyRegister s t rd v) (hsp : spReg ≠ rd) :
    sp t = sp s := by
  obtain ⟨-, hregs, -⟩ := h
  exact hregs.sp_eq (mt List.mem_singleton.mp hsp)

theorem spReg_ne_lowReg (r : LowReg) : spReg ≠ lowReg r :=
  Fin.ne_of_gt (Nat.lt_trans r.isLt (by decide))

theorem sp_writeAlu (s : State) (rd : LowReg) (a : AluResult) : sp (writeAlu s rd a) = sp s :=
  (writeAlu_effect s rd a).1.sp_eq (spReg_ne_lowReg rd)

theorem sp_writeNZ (s : State) (rd : LowReg) (v : Word) : sp (writeNZ s rd v) = sp s :=
  (writeNZ_effect s rd v).1.sp_eq (spReg_ne_lowReg rd)

theorem sp_hiWrite (s : State) {d : Reg} (v : Word) (hd : (d == spReg) = false) : sp (hiWrite s d v) = sp s :=
  (hiWrite_effect s d v).1.sp_eq fun e => by simp [e] at hd

theorem sp_branchBy (s : State) (offset : Word) : sp (branchBy s offset) = sp s :=
  (branchBy_effect s offset).1.sp_eq (by decide)

/-- An instruction R172 does not list leaves SP: the register its meaning writes, if any, is another one. -/
theorem exec_sp_of_not_writesSp {i : Instr} {s t : State} (hi : i.writesSp = false) (h : exec i s = .next t) :
    sp t = sp s := by
  cases i with
  | push | pop => cases hi
  | addHi | movHi => cases h; exact sp_hiWrite s _ hi
  | addReg | subReg | addImm3 | subImm3 | addImm8 | subImm8 => cases h; exact sp_writeAlu s _ _
  | movImm8 | ldrPc | ldrImm5 | ldrbImm5 => cases h; exact sp_writeNZ s _ _
  | cmpHi => cases h; rfl
  | bx => cases h; exact (interworkBranch_frame s _).1.sp_eq (by decide)
  | strImm5 => cases h; exact (write32_frame s _ _).1.sp_eq List.not_mem_nil
  | strbImm5 => cases h; exact (write8_frame s _ _).1.sp_eq List.not_mem_nil
  | b => cases h; exact sp_branchBy s _
  | bcond =>
    simp only [exec, execBcond] at h
    split at h <;> cases h
    · exact sp_branchBy s _
    · rfl
  | fallback =>
    simp only [exec, execFallback, raise] at h
    split at h <;> cases h
    rfl

/-- An instruction R172 lists completes from every state, whatever SP holds. -/
theorem exec_completes_of_writesSp {i : Instr} (s : State) (hi : i.writesSp = true) : ∃ t, exec i s = .next t := by
  cases i with
  | push | addHi | movHi => exact ⟨_, rfl⟩
  | pop pcBit => cases pcBit <;> exact ⟨_, rfl⟩
  | cmpHi | bx | addReg | subReg | addImm3 | subImm3 | movImm8 | addImm8 | subImm8 | ldrPc | strImm5 | ldrImm5
  | strbImm5 | ldrbImm5 | b | bcond | fallback => cases hi

/-- Settles O24: the unlisted instructions, the listed ones, and the reset of every register. -/
theorem stackPointerDiscipline : Obligations.StackPointerDiscipline :=
  ⟨fun _ _ _ => exec_sp_of_not_writesSp, fun _ s => exec_completes_of_writesSp s, fun s => readReg_cpuReset s spReg⟩

end Sys2Proof.Machine
end

section
/-! PROOFS. The statements of 43_branch.md: the conditions after a comparison, by one law for each flag of a subtraction
and the pairing of a condition with its opposite, and the two branches, by the effect of the PC-relative branch. -/

namespace Sys2Proof

/-- The condition a code's lowest bit turns `c` into. -/
def Cond.opposite (c : Cond) : Cond := Cond.ofCode (c.code ^^^ 1#4)

end Sys2Proof

namespace Sys2Proof.Machine

/-! ### The flags of a subtraction as relations (R131) -/

theorem subWithFlags_z_iff (a b : Word) : (subWithFlags a b).z = true ↔ a = b :=
  beq_iff_eq.trans sub_eq_zero

theorem subWithFlags_n_iff (a b : Word) : (subWithFlags a b).n = true ↔ (a - b).toInt < 0 := by
  simp only [subWithFlags, BitVec.msb_eq_toInt, decide_eq_true_iff]

/-- V is set exactly when the word difference is not the integer difference. -/
theorem subWithFlags_v_iff_inexact (a b : Word) :
    (subWithFlags a b).v = true ↔ (a - b).toInt ≠ a.toInt - b.toInt := by
  have hlo := (a - b).le_toInt
  have hhi := (a - b).toInt_lt
  rw [subWithFlags_v_iff_toInt, BitVec.toInt_sub]
  simp only [Int.bmod_def]
  omega

/-- N agrees with V exactly when the minuend is not less, as a signed number: with V clear N is the sign of the
difference, and with V set it is the opposite sign. -/
theorem subWithFlags_n_eq_v_iff (a b : Word) :
    (subWithFlags a b).n = (subWithFlags a b).v ↔ b.toInt ≤ a.toInt := by
  rw [Bool.eq_iff_iff, subWithFlags_n_iff, subWithFlags_v_iff_toInt, BitVec.toInt_sub]
  have ha := a.le_toInt
  have ha' := a.toInt_lt
  have hb := b.le_toInt
  have hb' := b.toInt_lt
  simp only [Int.bmod_def]
  omega

/-! ### Opposite conditions (R182) -/

/-- A condition holds exactly when its opposite fails: AL and the reserved code are such a pair too. -/
theorem conditionPassed_opposite (f : Cpsr) (c : Cond) :
    conditionPassed f c.opposite = !conditionPassed f c := by
  cases c with
  | eq | cs | mi | vs | ge | al | nv => rfl
  | ne | cc | pl | vc | lt => exact (Bool.not_not _).symm
  | hi => exact show (!f.c || f.z) = !(f.c && !f.z) by rw [Bool.not_and, Bool.not_not]
  | ls => exact show (f.c && !f.z) = !(!f.c || f.z) by rw [Bool.not_or, Bool.not_not]
  | gt => exact show (f.z || !(f.n == f.v)) = !(!f.z && f.n == f.v) by rw [Bool.not_and, Bool.not_not]
  | le => exact show (!f.z && f.n == f.v) = !(f.z || !(f.n == f.v)) by rw [Bool.not_or, Bool.not_not]

theorem conditionPassed_opposite_iff {f : Cpsr} {c : Cond} {p : Prop} (h : conditionPassed f c = true ↔ p) :
    conditionPassed f c.opposite = true ↔ ¬p := by
  rw [conditionPassed_opposite, Bool.not_eq_true', ← Bool.not_eq_true, h]

/-! ### The conditions after a comparison (R182) -/

section
variable (s : State) (a b : Word)

theorem compare_hi_iff :
    conditionPassed (setNZCV s (subWithFlags a b)).cpsr .hi = true ↔ b.toNat < a.toNat := by
  have hz := subWithFlags_z_iff a b
  rw [BitVec.toNat_eq] at hz
  simp only [conditionPassed, setNZCV_c, setNZCV_z, Bool.and_eq_true, Bool.not_eq_true', ← Bool.not_eq_true,
    subWithFlags_c_iff, hz]
  omega

theorem compare_ge_iff :
    conditionPassed (setNZCV s (subWithFlags a b)).cpsr .ge = true ↔ b.toInt ≤ a.toInt :=
  beq_iff_eq.trans (subWithFlags_n_eq_v_iff a b)

theorem compare_gt_iff :
    conditionPassed (setNZCV s (subWithFlags a b)).cpsr .gt = true ↔ b.toInt < a.toInt := by
  have hz := subWithFlags_z_iff a b
  rw [← BitVec.toInt_inj] at hz
  simp only [conditionPassed, setNZCV_n, setNZCV_v, setNZCV_z, Bool.and_eq_true, Bool.not_eq_true',
    ← Bool.not_eq_true, beq_iff_eq, subWithFlags_n_eq_v_iff, hz]
  omega

end

/-- Settles O10: seven conditions by the flags of a subtraction, their opposites as the negations, AL and the
reserved code by the table. -/
theorem conditionsAfterCompareAreComparisons : Obligations.ConditionsAfterCompareAreComparisons := by
  intro s a b f
  have heq : conditionPassed f .eq = true ↔ a = b := subWithFlags_z_iff a b
  have hcs : conditionPassed f .cs = true ↔ b.toNat ≤ a.toNat := subWithFlags_c_iff a b
  have hmi : conditionPassed f .mi = true ↔ (a - b).toInt < 0 := subWithFlags_n_iff a b
  have hvs : conditionPassed f .vs = true ↔ (a - b).toInt ≠ a.toInt - b.toInt := subWithFlags_v_iff_inexact a b
  have hhi := compare_hi_iff s a b
  have hge := compare_ge_iff s a b
  have hgt := compare_gt_iff s a b
  exact ⟨heq, conditionPassed_opposite_iff heq,
    hcs, (conditionPassed_opposite_iff hcs).trans Nat.not_le,
    hhi, (conditionPassed_opposite_iff hhi).trans Nat.not_lt,
    hge, (conditionPassed_opposite_iff hge).trans Int.not_le,
    hgt, (conditionPassed_opposite_iff hgt).trans Int.not_lt,
    hmi, (conditionPassed_opposite_iff hmi).trans Int.not_lt,
    hvs, (conditionPassed_opposite_iff hvs).trans not_not, rfl, rfl⟩

/-! ### The branches (R180, R181) -/

theorem bOffset_eq_ofInt (imm : BitVec 11) : bOffset imm = BitVec.ofInt 32 (2 * imm.toInt) := by
  rw [← bOffset_toInt, BitVec.ofInt_toInt]

theorem bcondOffset_eq_ofInt (imm : BitVec 8) : bcondOffset imm = BitVec.ofInt 32 (2 * imm.toInt) := by
  rw [← bcondOffset_toInt, BitVec.ofInt_toInt]

/-- A state differs from itself in no register. -/
theorem OnlyRegister.refl (s : State) (r : Reg) : OnlyRegister s s r (readReg s r) :=
  ⟨rfl, fun _ _ => rfl, ⟨fun _ => rfl, rfl, rfl⟩, rfl, rfl, rfl, rfl, rfl, rfl⟩

theorem exec_bcond_of_passed {c : Cond} {s : State} (imm : BitVec 8) (hc : conditionPassed s.cpsr c = true) :
    exec (.bcond c imm) s = .next (branchBy s (bcondOffset imm)) :=
  congrArg Host.Outcome.next (if_pos hc)

theorem exec_bcond_of_failed {c : Cond} {s : State} (imm : BitVec 8) (hc : ¬conditionPassed s.cpsr c = true) :
    exec (.bcond c imm) s = .next s :=
  congrArg Host.Outcome.next (if_neg hc)

/-- Settles O18: the effect of the PC-relative branch, and its offset as a number. -/
theorem branchResult : Obligations.BranchResult := by
  intro imm s
  rw [← bOffset_eq_ofInt]
  exact ⟨_, rfl, branchBy_effect s _⟩

/-- Settles O19: a condition that holds branches, one that fails leaves the state; code 15 always
fails, AL always holds. -/
theorem conditionalBranchResult : Obligations.ConditionalBranchResult := by
  intro c imm s
  rw [← bcondOffset_eq_ofInt]
  obtain ⟨hbranch, hcpsr⟩ := branchBy_effect s (bcondOffset imm)
  have ⟨hpc, _⟩ := hbranch
  refine ⟨?_, exec_bcond_of_failed imm Bool.false_ne_true, _, exec_bcond_of_passed imm rfl, hpc⟩
  by_cases hc : conditionPassed s.cpsr c = true
  · rw [if_pos hc]
    exact ⟨_, exec_bcond_of_passed imm hc, hcpsr, hbranch⟩
  · rw [if_neg hc]
    exact ⟨_, exec_bcond_of_failed imm hc, rfl, OnlyRegister.refl s pcReg⟩

end Sys2Proof.Machine
end

section
/-! PROOFS. The statements of 44_loadstore.md: the rotate primitive as rotation of bits, the word access primitives at
every alignment, and the five loads and stores. -/

namespace Sys2Proof.Machine

/-! ### Rotation (R212) -/

theorem ror32_eq_rotateRight (v : Word) (n : Nat) : ror32 v n = v.rotateRight n := by
  rw [ror32, BitVec.rotateRight_def]
  split
  next h => rw [h, BitVec.ushiftRight_zero, BitVec.shiftLeft_eq_zero (Nat.le_refl 32), BitVec.or_zero]
  next => rfl

/-- Bit `i` comes from `n` places above, counted around the word. -/
theorem ror32_getLsbD (v : Word) (n : Nat) {i : Nat} (hi : i < 32) :
    (ror32 v n).getLsbD i = v.getLsbD ((i + n) % 32) := by
  rw [ror32_eq_rotateRight, BitVec.getLsbD_rotateRight]
  by_cases hwrap : i < 32 - n % 32
  · rw [decide_eq_true hwrap, cond_true]
    congr 1
    omega
  · rw [decide_eq_false hwrap, cond_false, decide_eq_true hi, Bool.true_and]
    congr 1
    omega

/-- Two rotations are one by the sum of the amounts. -/
theorem ror32_ror32 (v : Word) (m n : Nat) : ror32 (ror32 v m) n = ror32 v (m + n) := by
  refine BitVec.eq_of_getLsbD_eq fun i hi => ?_
  rw [ror32_getLsbD _ _ hi, ror32_getLsbD _ _ (Nat.mod_lt _ (by decide)), ror32_getLsbD _ _ hi]
  congr 1
  omega

/-- Rotating right by the rest of the word is rotating left. -/
theorem ror32_sub_eq_rotateLeft (v : Word) {n : Nat} (hn : n < 32) : ror32 v (32 - n) = v.rotateLeft n := by
  rcases Nat.eq_zero_or_pos n with rfl | hpos
  · rw [BitVec.rotateLeft_def, Nat.zero_mod, BitVec.shiftLeft_zero, BitVec.ushiftRight_eq_zero (Nat.le_refl 32),
      BitVec.or_zero]
    rfl
  · rw [ror32_eq_rotateRight, BitVec.rotateRight_def, BitVec.rotateLeft_def, Nat.mod_eq_of_lt hn,
      Nat.mod_eq_of_lt (Nat.sub_lt (by decide) hpos), Nat.sub_sub_self (Nat.le_of_lt hn), BitVec.or_comm]

/-- Settles O25: the formula is the definition's, and the bits are those of a rotation. -/
theorem rotateRightPrimitive : Obligations.RotateRightPrimitive := fun v n =>
  ⟨rfl, fun _ => ror32_getLsbD v n⟩

/-! ### The word access primitives (R210, R211) -/

theorem misalignment_lt (a : Word) : misalignment a < 4 := (a.extractLsb' 0 2).isLt

theorem loadWordRotated_eq_rotateRight (s : State) (a : Word) :
    loadWordRotated s a = (read32 s (alignWord a)).rotateRight (8 * (a.toNat % 4)) := by
  rw [loadWordRotated, ror32_eq_rotateRight, misalignment_eq]

theorem storeRotation_eq_rotateLeft (a v : Word) : storeRotation a v = v.rotateLeft (8 * (a.toNat % 4)) := by
  rw [storeRotation, misalignment_eq, ror32_sub_eq_rotateLeft v (by omega)]

/-- The load's rotation undoes the store's: together they are one full turn. -/
theorem ror32_storeRotation (a v : Word) : ror32 (storeRotation a v) (8 * misalignment a) = v := by
  have hlt := misalignment_lt a
  rw [storeRotation, ror32_ror32, Nat.sub_add_cancel (by omega)]
  rfl

/-- Settles O31: the word written reads back, and the load's rotation undoes the store's. -/
theorem rotatedStoreThenLoadIsIdentity : Obligations.RotatedStoreThenLoadIsIdentity := by
  intro s a v hplain
  rw [loadWordRotated, storeWordRotated, read32_write32 s _ _ hplain, ror32_storeRotation]

/-- At an aligned address the rotated load is a plain one. -/
theorem loadWordRotated_of_aligned (s : State) {a : Word} (h : a.toNat % 4 = 0) : loadWordRotated s a = read32 s a := by
  have halign : alignWord a = a := by rw [← BitVec.toNat_inj, toNat_alignWord, h, Nat.sub_zero]
  rw [loadWordRotated, misalignment_eq, h, halign]
  rfl

/-! ### Addresses (R200 to R204) -/

theorem literalAddress_eq (s : State) (imm : BitVec 8) :
    literalAddress s imm = alignWord (pc s + 2#32) + BitVec.ofNat 32 (4 * imm.toNat) :=
  congrArg _ (zextImm_shiftLeft_two (by decide) imm)

theorem literalAddress_mod_four (s : State) (imm : BitVec 8) : (literalAddress s imm).toNat % 4 = 0 := by
  have hbase := alignWord_mod_four (pc s + 2#32)
  rw [literalAddress_eq, BitVec.toNat_add, BitVec.toNat_ofNat]
  omega

theorem wordAddress_eq (s : State) (rb : LowReg) (imm : BitVec 5) :
    wordAddress s rb imm = readReg s (lowReg rb) + BitVec.ofNat 32 (4 * imm.toNat) :=
  congrArg _ (zextImm_shiftLeft_two (by decide) imm)

theorem byteAddress_eq (s : State) (rb : LowReg) (imm : BitVec 5) :
    byteAddress s rb imm = readReg s (lowReg rb) + BitVec.ofNat 32 imm.toNat := by
  rw [BitVec.ofNat_toNat]
  rfl

/-! ### Loads (R200, R202, R204) -/

/-- Settles O26: the literal's address is aligned, so the load does not rotate. -/
theorem literalLoadResult : Obligations.LiteralLoadResult := by
  intro rd imm s
  refine ⟨_, rfl, ?_⟩
  rw [loadWordRotated_of_aligned s (literalAddress_mod_four s imm), literalAddress_eq]
  exact writeNZ_effect s rd _

/-- Settles O27: the rotated load at the address as a number. -/
theorem loadWordResult : Obligations.LoadWordResult := by
  intro rd rb imm s
  refine ⟨_, rfl, ?_⟩
  rw [loadWordRotated_eq_rotateRight, wordAddress_eq]
  exact writeNZ_effect s rd _

/-- Settles O28: the effect of the register write with N and Z, on an 8-bit value. -/
theorem loadByteResult : Obligations.LoadByteResult := by
  intro rd rb imm s
  rw [← byteAddress_eq]
  obtain ⟨honly, hflags⟩ := writeNZ_effect s rd (zextImm (read8 s (byteAddress s rb imm)))
  have ⟨hn, _⟩ := hflags
  exact ⟨_, rfl, honly, hflags, hn.trans (zextImm_bit31 (by decide) _)⟩

/-! ### Stores (R201, R203) -/

/-- Settles O29: a word write of the value rotated left, at the aligned address, with the frame of a word write. -/
theorem storeWordResult : Obligations.StoreWordResult := by
  intro rd rb imm s
  refine ⟨_, rfl, wordAddress_eq s rb imm, ?_⟩
  rw [storeWordRotated, storeRotation_eq_rotateLeft]
  obtain ⟨hregs, hcpsr, hsys, hmem⟩ := write32_frame s _ _
  exact ⟨⟨rfl, fun _ hj hplain => read8_write32_byte s _ _ hj hplain, hmem⟩, hregs, hcpsr, hsys⟩

/-- Settles O30: a byte write of the low byte, with the frame of a byte write. -/
theorem storeByteResult : Obligations.StoreByteResult := by
  intro rd rb imm s
  obtain ⟨hregs, hcpsr, hsys, hmem⟩ := write8_frame s (byteAddress s rb imm) (byteOf (readReg s (lowReg rd)) 0)
  exact ⟨_, rfl, byteAddress_eq s rb imm, rfl, fun hplain => read8_write8_same s _ hplain rfl, hmem, hregs, hcpsr, hsys⟩

end Sys2Proof.Machine
end

section
/-! PROOFS. The statements of 45_fallback.md: which words are the fallback's (R220, R221), and what a fallback word does
under each policy (R220). -/

namespace Sys2Proof.Machine

/-! ### The fallback words (R220, R221) -/

/-- No row of the opcode map builds a fallback. -/
theorem build_ne_fallback (w u : Half) : ∀ r ∈ opcodeRows, r.build w ≠ .fallback u := by
  simp [opcodeRows, opcodeRows8, opcodeRows7, opcodeRows5, opcodeRows4]

/-- A word decoded to a fallback is selected by no row, so it lies in the fallback space. -/
theorem inFallbackSpace_of_decode {w u : Half} (h : decode w = .fallback u) : inFallbackSpace w = true := by
  obtain ⟨r, hr, -, hdec⟩ | ⟨hnone, -⟩ := decodeIn_cases opcodeRows w
  · exact absurd (hdec.symm.trans h) (build_ne_fallback w u r hr)
  · exact (inFallbackSpace_iff w).mpr hnone

/-- Settles O3: both sides say that no row of the opcode map selects the word. -/
theorem fallbackWordsAreTheListedRanges : Obligations.FallbackWordsAreTheListedRanges :=
  fun w => ⟨fun ⟨_, h⟩ => inFallbackSpace_of_decode h, fun h => ⟨w, decode_of_inFallbackSpace h⟩⟩

/-! ### The policy (R220) -/

theorem exec_fallback_of_nop {s : State} (h : s.config.unimplPolicy = .nop) (w : Half) :
    exec (.fallback w) s = .next s := by
  rw [exec, execFallback, h]

theorem exec_fallback_of_fault {s : State} (h : s.config.unimplPolicy = .fault) (w : Half) :
    exec (.fallback w) s = .fault (.raised (.unimplemented w)) := by
  rw [exec, execFallback, h, raise]

/-- Settles O32, by the fallback's meaning under each policy. -/
theorem fallbackFollowsThePolicy : Obligations.FallbackFollowsThePolicy :=
  fun w _ => ⟨fun h => exec_fallback_of_nop h w, fun h => exec_fallback_of_fault h w⟩

end Sys2Proof.Machine
end

section
/-! PROOFS. The statements of 60_exceptions.md: under `nop` a step always completes (R230, R231), and what each stop answers
and leaves (R232, R234). The checks before the fetch are taken through one equation of `stepGuard` for each of its
answers. -/

namespace Sys2Proof.Machine

/-! ### A step after its checks (R100) -/

theorem step_of_stepGuard {s : State} {f : Fault} (h : stepGuard s = some f) : step s = .fault f := by
  rw [step, h]

theorem step_of_runnable {s : State} (h : Runnable s) : step s = exec (decode (fetch s)) (advancePc s) := by
  rw [step, stepGuard_runnable h]

/-! ### No step stops under `nop` (R220, R230, R231) -/

/-- Under `nop` every instruction completes from every state: only the fallback's meaning reads the policy. -/
theorem exec_completes_of_nop {s : State} (h : s.config.unimplPolicy = .nop) (i : Instr) : ∃ t, exec i s = .next t := by
  cases i with
  | fallback word => exact ⟨s, exec_fallback_of_nop h word⟩
  | bcond cond imm =>
    by_cases hc : conditionPassed s.cpsr cond = true
    · exact ⟨_, exec_bcond_of_passed imm hc⟩
    · exact ⟨_, exec_bcond_of_failed imm hc⟩
  | push | pop => exact exec_completes_of_writesSp s rfl
  | addHi | cmpHi | movHi | bx | addReg | subReg | addImm3 | subImm3 | movImm8 | addImm8 | subImm8 | ldrPc | strImm5
  | ldrImm5 | strbImm5 | ldrbImm5 | b => exact ⟨_, rfl⟩

/-- Settles O47: the guard passes, and the PC advance keeps the policy. -/
theorem noStepStopsUnderNop : Obligations.NoStepStopsUnderNop := by
  intro s hrun hpolicy
  rw [step_of_runnable hrun]
  exact exec_completes_of_nop (s := advancePc s) hpolicy _

/-! ### What each stop answers (R220, R234) -/

/-- The status is looked at before T. -/
theorem stepGuard_faulted {s : State} {r : FaultReason} (h : s.status = .faulted r) :
    stepGuard s = some (.notRunning r) := by
  rw [stepGuard, h]

theorem stepGuard_armState {s : State} (hst : s.status = .running) (ht : s.cpsr.t = false) :
    stepGuard s = some (.raised .armStateUnimplemented) := by
  simp [stepGuard, hst, ht]

/-- Under `fault` a fetched fallback word stops the step, with the word. -/
theorem step_of_fallback {s : State} (hrun : Runnable s) (hpolicy : s.config.unimplPolicy = .fault)
    (hword : inFallbackSpace (fetch s) = true) : step s = .fault (.raised (.unimplemented (fetch s))) := by
  rw [step_of_runnable hrun, decode_of_inFallbackSpace hword]
  exact exec_fallback_of_fault (s := advancePc s) hpolicy _

/-! ### What each stop leaves (R14, R232) -/

theorem advance_of_fault {s : State} {f : Fault} (h : step s = .fault f) : advance s = recordFault s f := by
  rw [advance, h]

/-- A faulted state already holds the reason its stop would record. -/
theorem recordFault_of_faulted {s : State} {r : FaultReason} (h : s.status = .faulted r) :
    recordFault s (.notRunning r) = s := by
  rw [recordFault, Fault.reason, ← h]

/-- Settles O46: each stop's answer, from which `advance` gives the state it leaves; CPU reset sets both fields. -/
theorem faultsStopTheMachine : Obligations.FaultsStopTheMachine := by
  intro s r
  refine ⟨fun hst ht => ?armState, fun hrun hpolicy hword => ?fallback, fun hst => ?faulted, rfl, rfl⟩
  case armState =>
    have hstep := step_of_stepGuard (stepGuard_armState hst ht)
    exact ⟨hstep, advance_of_fault hstep⟩
  case fallback =>
    have hstep := step_of_fallback hrun hpolicy hword
    exact ⟨hstep, advance_of_fault hstep⟩
  case faulted =>
    have hstep := step_of_stepGuard (stepGuard_faulted hst)
    exact ⟨hstep, (advance_of_fault hstep).trans (recordFault_of_faulted hst)⟩

end Sys2Proof.Machine
end

section
/-! PROOFS. The statements of 70_reset_and_hazards.md: an instruction placed where the next fetch reads it, the cartridge
loads, and the setters and debug accessors. What a load or a setter leaves of memory goes through `read8_congr`, which
says once what a byte read sees of the state. -/

namespace Sys2Proof.Machine

variable {s t : State} {a : Word}

/-! ### Placing an instruction (log entry 4) -/

@[simp] theorem placeByte_cpsr (s : State) (a : Word) (v : Byte) : (placeByte s a v).cpsr = s.cpsr := by
  simp only [placeByte]
  split <;> simp

@[simp] theorem placeByte_status (s : State) (a : Word) (v : Byte) : (placeByte s a v).status = s.status := by
  simp only [placeByte]
  split <;> simp

@[simp] theorem growRom_cpsr (s : State) (a : Word) : (growRom s a).cpsr = s.cpsr := by
  unfold growRom
  split <;> rfl

@[simp] theorem growRom_status (s : State) (a : Word) : (growRom s a).status = s.status := by
  unfold growRom
  split <;> rfl

theorem runnable_placeHalf (hs : Runnable s) (a : Word) (h : Half) : Runnable (placeHalf s a h) := by
  unfold Runnable at *
  simpa [placeHalf] using hs

theorem runnable_readyToFetch (s : State) : Runnable (readyToFetch s) := ⟨rfl, rfl⟩

/-- In plain storage the host places a byte by an ordinary write. -/
theorem placeByte_of_plain (s : State) (v : Byte) (ha : (resolve a).isPlain = true) :
    placeByte s a v = write8 s a v := by
  rcases hp : resolve a with ⟨r, i⟩
  rw [hp] at ha
  simp only [placeByte, hp]
  cases r with
  | bios | rom => simp [Place.isPlain, Region.isRam] at ha
  | ewram | iwram | palette | vram | oam | io | unmapped => rfl

/-- In plain storage the host places a halfword by an ordinary write. -/
theorem placeHalf_of_plain (s : State) (h : Half) (h0 : (resolve a).isPlain = true)
    (h1 : (resolve (a + 1#32)).isPlain = true) : placeHalf s a h = write16 s a h := by
  have hrom : (resolve a).region ≠ .rom := fun hr => by simp [Place.isPlain, Region.isRam, hr] at h0
  rw [placeHalf, growRom, if_neg fun hgrow => hrom hgrow.1, placeByte_of_plain _ _ h0, placeByte_of_plain _ _ h1,
    write16]

/-- At the spare address, which is plain storage, a placed halfword is the one the next fetch reads. -/
theorem fetch_placeHalf_spare (s : State) (h : Half) :
    fetch (placeHalf (writeReg s pcReg spareAddress) spareAddress h) = h := by
  have h0 : (resolve spareAddress).isPlain = true := by decide
  have h1 : (resolve (spareAddress + 1#32)).isPlain = true := by decide
  have hpc : pc (write16 (writeReg s pcReg spareAddress) spareAddress h) = spareAddress := by
    rw [pc, readReg, write16_regs]
    exact readReg_writeReg_same s pcReg spareAddress
  rw [placeHalf_of_plain _ h h0 h1, fetch, hpc, read16_write16 _ _ h h0 h1]

/-- The placed halfword stands at PC where the map can hold it, and at the spare address otherwise. -/
theorem withFetchHalf_cases (s : State) (h : Half) :
    (withFetchHalf s h = placeHalf (readyToFetch s) (pc (readyToFetch s)) h ∧ fetch (withFetchHalf s h) = h) ∨
    withFetchHalf s h = placeHalf (writeReg (readyToFetch s) pcReg spareAddress) spareAddress h := by
  unfold withFetchHalf
  simp only
  split
  next hfetch => exact .inl ⟨rfl, hfetch⟩
  next => exact .inr rfl

theorem runnable_withFetchHalf (s : State) (h : Half) : Runnable (withFetchHalf s h) := by
  rcases withFetchHalf_cases s h with ⟨e, -⟩ | e <;> rw [e]
  · exact runnable_placeHalf (runnable_readyToFetch s) _ h
  · exact runnable_placeHalf (s := writeReg (readyToFetch s) pcReg spareAddress) (runnable_readyToFetch s) _ h

theorem fetch_withFetchHalf (s : State) (h : Half) : fetch (withFetchHalf s h) = h := by
  rcases withFetchHalf_cases s h with ⟨-, hfetch⟩ | e
  · exact hfetch
  · rw [e, fetch_placeHalf_spare]

/-- Settles O56: the guard passes, and the fetch reads the placed word. -/
theorem placedWordIsExecutedNext : Obligations.PlacedWordIsExecutedNext := by
  intro s nbits w
  have hrun : Runnable (s.withFetchWord nbits w) := runnable_withFetchHalf s _
  have hfetch : fetch (s.withFetchWord nbits w) = tableHalf nbits w := fetch_withFetchHalf s _
  exact ⟨hrun, hfetch, by rw [step_of_runnable hrun, hfetch]⟩

/-! ### What a byte read sees (R52) -/

/-- A byte read sees the backing byte of its own place, whether a BIOS is loaded, and what the I/O block and the cartridge
show. -/
theorem read8_congr (hback : backing t (resolve a) = backing s (resolve a))
    (hio : ∀ off, resolve a = ⟨.io, off⟩ → ioRead8 t off = ioRead8 s off)
    (hrom : ∀ off, resolve a = ⟨.rom, off⟩ → romRead8 t off = romRead8 s off)
    (hbios : t.biosLoaded = s.biosLoaded) : read8 t a = read8 s a := by
  unfold read8
  rcases hp : resolve a with ⟨r, i⟩
  rw [hp] at hback
  cases r with
  | bios => simp only [hbios, hback]
  | ewram | iwram | palette | vram | oam => exact hback
  | io => exact hio i hp
  | rom => exact hrom i hp
  | unmapped => rfl

/-- An I/O read sees the backing byte of its own place and the fields behind DISPSTAT and VCOUNT. -/
theorem ioRead8_congr {off : Nat} (hback : backing t ⟨.io, off⟩ = backing s ⟨.io, off⟩)
    (hd : dispstatRead16 t = dispstatRead16 s) (hl : t.scanline = s.scanline) : ioRead8 t off = ioRead8 s off := by
  simp only [ioRead8, hback, hd, hl]

/-! ### Cartridge loads (R271 to R273) -/

/-- Every place outside the cartridge has its byte below the cartridge's. -/
theorem resolve_key_lt (ha : (resolve a).region ≠ .rom) : (resolve a).key < Region.base .rom := by
  have hspec := resolve_spec a
  rcases hp : resolve a with ⟨r, i⟩
  rw [hp] at ha hspec
  cases r with
  | rom => exact absurd rfl ha
  | bios | ewram | iwram | io | palette | vram | oam | unmapped =>
    simp only [Place.key, Region.base] at hspec ⊢
    omega

/-- A cartridge load touches no byte outside the cartridge. -/
theorem read8_setRom_of_ne_rom (s : State) (image : List Byte) (ha : (resolve a).region ≠ .rom) :
    read8 (setRom image s) a = read8 s a := by
  have hback : backing (setRom image s) (resolve a) = backing s (resolve a) :=
    Memory.read_setRom s image (resolve_key_lt ha)
  refine read8_congr hback (fun off hp => ?_) (fun off hp => absurd (by rw [hp]) ha) rfl
  exact ioRead8_congr (by rwa [hp] at hback) rfl rfl

/-- Settles O59: the loads are `setRom` or nothing. -/
theorem cartridgeLoadsSucceedOrChangeNothing : Obligations.CartridgeLoadsSucceedOrChangeNothing :=
  ⟨fun _ _ => ⟨rfl, rfl⟩, fun _ => ⟨rfl, rfl⟩, fun _ _ _ => rfl, fun image s _ => read8_setRom_of_ne_rom s image,
    fun _ _ => ⟨rfl, rfl, rfl⟩⟩

/-! ### The setters (R274) -/

/-- The I/O block is not mirrored: the offset determines the address (R51). -/
theorem eq_ofNat_of_resolve_io {off : Nat} (h : resolve a = ⟨.io, off⟩) : a = BitVec.ofNat 32 (0x04000000 + off) := by
  have hspec := resolve_spec a
  rw [h] at hspec
  obtain ⟨haddr, -⟩ := hspec
  rw [← haddr, BitVec.ofNat_toNat, BitVec.setWidth_eq]

/-- With the same memory, BIOS and cartridge, only the I/O block can read differently. -/
theorem read8_congr_io (hmem : t.mem = s.mem) (hbios : t.biosLoaded = s.biosLoaded) (hsize : t.romSize = s.romSize)
    (hio : ∀ off, a = BitVec.ofNat 32 (0x04000000 + off) → ioRead8 t off = ioRead8 s off) :
    read8 t a = read8 s a := by
  have hback (p : Place) : backing t p = backing s p := by rw [backing, hmem, backing]
  refine read8_congr (hback _) (fun off hp => hio off (eq_ofNat_of_resolve_io hp)) (fun off _ => ?_) hbios
  simp only [romRead8, hsize, hback]

/-- The scanline shows in DISPSTAT's low byte and in VCOUNT. -/
theorem read8_setScanline (s : State) (v : Half) (h4 : a ≠ 0x04000004#32) (h6 : a ≠ 0x04000006#32)
    (h7 : a ≠ 0x04000007#32) : read8 (setScanline v s) a = read8 s a := by
  refine read8_congr_io rfl rfl rfl fun off ha => ?_
  by_cases h5 : off = 5
  · subst h5
    exact (ioRead8_five _).trans (ioRead8_five s).symm
  · have hplain : isTypedIo off = false := by
      have n4 : off ≠ 4 := fun e => h4 (by rw [ha, e])
      have n6 : off ≠ 6 := fun e => h6 (by rw [ha, e])
      have n7 : off ≠ 7 := fun e => h7 (by rw [ha, e])
      simp only [isTypedIo, Bool.and_eq_false_iff, decide_eq_false_iff_not]
      omega
    exact (ioRead8_plain _ hplain).trans (ioRead8_plain s hplain).symm

/-- The HBlank input shows in DISPSTAT's low byte. -/
theorem read8_setHblank (s : State) (b : Bool) (h4 : a ≠ 0x04000004#32) : read8 (setHblank b s) a = read8 s a := by
  refine read8_congr_io rfl rfl rfl fun off ha => ?_
  by_cases h5 : off = 5
  · subst h5
    exact (ioRead8_five _).trans (ioRead8_five s).symm
  · exact ioRead8_congr_of_ne (fun e => h4 (by rw [ha, e])) h5 rfl rfl

/-! ### The debug accessors (R275) -/

theorem maskedReg_mod (i : Nat) : maskedReg (i % 16) = maskedReg i :=
  Fin.ext (Nat.mod_mod i 16)

/-- A register write changes one register and nothing else. -/
theorem writeReg_effect (s : State) (r : Reg) (v : Word) :
    OnlyRegister s (writeReg s r v) r v ∧ (writeReg s r v).cpsr = s.cpsr :=
  ⟨⟨readReg_writeReg_same s r v, fun _ hq => readReg_writeReg_ne s v fun e => hq (List.mem_singleton.mpr e),
    ⟨fun _ => rfl, rfl, rfl⟩, rfl, rfl, rfl, rfl, rfl, rfl⟩, rfl⟩

/-- The CPSR word bit by bit (R27, R31). -/
theorem getLsbD_toWord (f : Cpsr) (k : Nat) :
    f.toWord.getLsbD k = if k = 31 then f.n else if k = 30 then f.z else if k = 29 then f.c else if k = 28 then f.v
      else if k = 5 then f.t else false := by
  by_cases hflag : k = 31 ∨ k = 30 ∨ k = 29 ∨ k = 28 ∨ k = 5
  · rcases hflag with rfl | rfl | rfl | rfl | rfl <;>
      (simp only [Cpsr.toWord, BitVec.getLsbD_append, BitVec.getLsbD_ofBool]; rfl)
  · simp only [not_or] at hflag
    obtain ⟨h31, h30, h29, h28, h5⟩ := hflag
    rw [if_neg h31, if_neg h30, if_neg h29, if_neg h28, if_neg h5]
    obtain hlow | hmid | hhigh : k < 5 ∨ (6 ≤ k ∧ k < 28) ∨ 32 ≤ k := by omega
    · rw [Cpsr.toWord, BitVec.getLsbD_append, if_pos hlow, BitVec.getLsbD_zero]
    · rw [Cpsr.toWord, BitVec.getLsbD_append, if_neg (by omega), BitVec.getLsbD_append, if_neg (by omega),
        BitVec.getLsbD_append, if_pos (by omega), BitVec.getLsbD_zero]
    · exact BitVec.getLsbD_of_ge _ _ hhigh

/-- Settles O60: each accessor by its own law, each setter by its frame. -/
theorem debugAccessorsReachTheNamedState : Obligations.DebugAccessorsReachTheNamedState := by
  refine ⟨fun s i v => ?setReg, fun s v => ?setPc, fun _ => rfl, fun s => getLsbD_toWord s.cpsr,
    fun s v => ⟨rfl, fun _ => read8_setScanline s v⟩, fun s b => ⟨rfl, fun _ => read8_setHblank s b⟩⟩
  case setReg =>
    obtain ⟨⟨hvalue, hregs, hmem, hsys⟩, hcpsr⟩ := writeReg_effect s (maskedReg i) v
    refine ⟨by rw [getReg, getReg, maskedReg_mod], hvalue, fun j hj => hregs _ fun hm => ?_, hcpsr, hmem, hsys⟩
    exact hj (congrArg Fin.val (List.mem_singleton.mp hm))
  case setPc =>
    obtain ⟨⟨hvalue, hregs, hmem, hsys⟩, hcpsr⟩ := writeReg_effect s pcReg (v &&& 0xFFFFFFFE#32)
    exact ⟨(congrArg BitVec.toNat hvalue).trans (toNat_and_clearBit0 v), hregs, hcpsr, hmem, hsys⟩

end Sys2Proof.Machine
end

section
/-! PROOFS. The example words of the family files and the test vectors: each has the fixed bits of its instruction's row of
the opcode map (R108), and that row builds the instruction from the word's fields (R105). -/

namespace Sys2Proof.Machine

/-- Settles O4, word by word: its row of the opcode map, and for the last word the fallback space (R221). -/
theorem exampleWordsDecode : Obligations.ExampleWordsDecode := by
  refine ⟨?addHi, ?cmpHi, ?movHi, ?bx, ?subReg, ?addImm3, ?push, ?pop, ?movImm8, ?subImm8, ?ldrPc, ?strImm5, ?ldrbImm5,
    ?b, ?bcond, ?fallback⟩
  case addHi => exact decode_of_row 0 rfl
  case cmpHi => exact decode_of_row 1 rfl
  case movHi => exact decode_of_row 2 rfl
  case bx => exact decode_of_row 3 rfl
  case subReg => exact decode_of_row 5 rfl
  case addImm3 => exact decode_of_row 6 rfl
  case push => exact decode_of_row 8 rfl
  case pop => exact decode_of_row 9 rfl
  case movImm8 => exact decode_of_row 10 rfl
  case subImm8 => exact decode_of_row 12 rfl
  case ldrPc => exact decode_of_row 13 rfl
  case strImm5 => exact decode_of_row 14 rfl
  case ldrbImm5 => exact decode_of_row 17 rfl
  case b => exact decode_of_row 18 rfl
  case bcond => exact decode_of_row 19 rfl
  case fallback => exact decode_of_inFallbackSpace rfl

end Sys2Proof.Machine
end
